-- ==== Sys2Proof/Word.lean ====
section
/-! DEFINITION. The bit-vector types the spec's words have (00_scope.md R6, R7; bit 0 is the least significant). -/
namespace Sys2Proof

/-- A pixel value, a packed byte, a stream byte (PIXW = BYTEW = 8, rule R6). -/
abbrev Byte := BitVec 8

/-- A command word CW[9:0] (rule R42). -/
abbrev CmdWord := BitVec 10

/-- An output word OW[9:0] as bits (rule R46). -/
abbrev OutBits := BitVec 10

/-- The status word SW[31:0] (rule R19). -/
abbrev StatusWord := BitVec 32

/-- The value of MODE[1:0]: bit 0 is BYP_PACK, bit 1 is BYP_RLE (rule R15). -/
abbrev Mode := BitVec 2

end Sys2Proof
end

