-- ==== Sys2Proof/Syntax.lean ====
section
/-! DEFINITION. The four commands (one constructor per row of spec/opcode_table.json) and the assembler's lines. -/
namespace Sys2Proof

/-- The fontgen CORE command set, revision 1 (30_encoding.md rule R43). -/
inductive Instr where
  /-- DATA d: d is CW[7:0], a pixel when MODE[0] = 0, a byte when MODE[0] = 1 (R44, R75). -/
  | data (d : Byte)
  /-- END, no operand (R80). -/
  | endFrame
  /-- CFG m: m is CW[1:0], the new MODE (R44, R81). -/
  | cfg (m : Mode)
  /-- CLR, no operand (R82). -/
  | clr
  deriving DecidableEq, Repr

/-- One line of the assembler (rule R53) or one of its pseudo-instructions (rule R54). Operands are numbers as written,
so a line can be out of range: `AsmLine.wellFormed` says when it is not. -/
inductive AsmLine where
  | data (n : Nat)
  | endFrame
  | cfg (m : Nat)
  | clr
  /-- `.word w`: a raw command word, "the only way to write an illegal one" (R53). -/
  | word (w : Nat)
  /-- `REP k, n`: k copies of `DATA n` (R54). -/
  | rep (k n : Nat)
  /-- `PIX8 b`: eight DATA, most significant bit first (R54). -/
  | pix8 (b : Nat)
  /-- `ZERO k` is `REP k, 0` (R54). -/
  | zero (k : Nat)
  deriving DecidableEq, Repr

end Sys2Proof
end

