-- ==== Sys2Proof/WellFormed.lean ====
section
/-! DEFINITION. What makes a command, a command word and an assembler line well formed (30_encoding.md R43, R44, R51, R53). -/
namespace Sys2Proof

/-- The operand ranges of rule R44. The operands are bit vectors of the field's own width, so this holds of every command
(`Instr.wellFormed_true`): an operand that does not fit its field cannot be written. -/
def Instr.wellFormed : Instr → Bool
  | .data d => decide (d.toNat ≤ 255)
  | .endFrame => true
  | .cfg m => decide (m.toNat ≤ 3)
  | .clr => true

/-- One row of the table of rule R43. -/
structure OpcodeRow where
  mnemonic : String
  mask : CmdWord
  matchBits : CmdWord
  deriving DecidableEq, Repr

/-- The table of rule R43 (mask and match), row by row. -/
def opcodeTable : List OpcodeRow :=
  [⟨"DATA", 0x300, 0x000⟩, ⟨"END", 0x3FF, 0x100⟩, ⟨"CFG", 0x3FC, 0x200⟩, ⟨"CLR", 0x3FF, 0x300⟩]

/-- A word matches a row when the bits under the row's mask are the row's. -/
def OpcodeRow.fits (r : OpcodeRow) (w : CmdWord) : Bool := w &&& r.mask == r.matchBits

/-- A legal command word: it fits a row of rule R43's table; the 762 others are rule R51's illegal words. -/
def CmdWord.legal (w : CmdWord) : Bool := opcodeTable.any (·.fits w)

/-- The operand ranges of rules R53 and R54. -/
def AsmLine.wellFormed : AsmLine → Bool
  | .data n => decide (n ≤ 255)
  | .endFrame => true
  | .cfg m => decide (m ≤ 3)
  | .clr => true
  | .word w => decide (w ≤ 1023)
  | .rep _ n => decide (n ≤ 255)
  | .pix8 b => decide (b ≤ 255)
  | .zero _ => true

end Sys2Proof
end

