-- ==== Sys2Proof/Decode.lean ====
section
/-! DEFINITION. Decoding command words (30_encoding.md R42 to R45, R51), the 16-bit container the opcode table's tools
number them in, and the encoder written from the same table. Decoding reads the word alone: never MODE or PHASE (R45). -/
namespace Sys2Proof

/-- Why no command is read. -/
inductive Reject where
  /-- op = 0b01 with data != 0 (0x101 to 0x1FF, rule R51). -/
  | endOperandNotZero
  /-- op = 0b10 with data[7:2] != 0 (0x204 to 0x2FF, rule R51). -/
  | cfgReservedBits
  /-- op = 0b11 with data != 0 (0x301 to 0x3FF, rule R51). -/
  | clrOperandNotZero
  /-- Fewer than the two bytes that carry one 10-bit word (the model's own container, log 4). -/
  | tooFewBytes
  /-- A number with a bit above bit 9 is no command word (R42: every command is one 10-bit word; log 4). -/
  | widerThanTenBits
  deriving DecidableEq, Repr

/-- The field `op`, CW[9:8] (R42). -/
def CmdWord.op (w : CmdWord) : BitVec 2 := w.extractLsb' 8 2

/-- The field `data`, CW[7:0] (R42). -/
def CmdWord.data (w : CmdWord) : Byte := w.extractLsb' 0 8

/-- CFG's operand m, CW[1:0] (R44). -/
def CmdWord.cfgMode (w : CmdWord) : Mode := w.extractLsb' 0 2

/-- CFG's reserved field, CW[7:2] (R44). -/
def CmdWord.cfgReserved (w : CmdWord) : BitVec 6 := w.extractLsb' 2 6

/-- The command a word stands for (R43, R44), or the reason it is illegal (R51). -/
def decode (w : CmdWord) : Except Reject Instr :=
  if CmdWord.op w = 0b00#2 then .ok (.data (CmdWord.data w))
  else if CmdWord.op w = 0b01#2 then
    if CmdWord.data w = 0x00#8 then .ok .endFrame else .error .endOperandNotZero
  else if CmdWord.op w = 0b10#2 then
    if CmdWord.cfgReserved w = 0#6 then .ok (.cfg (CmdWord.cfgMode w)) else .error .cfgReservedBits
  else
    if CmdWord.data w = 0x00#8 then .ok .clr else .error .clrOperandNotZero

/-- The word of a command (R43): `op : data`, DATA `0b00 : d`, END 0x100, CFG `0b10 : 0b000000 : m`, CLR 0x300. -/
def encode : Instr → CmdWord
  | .data d => 0b00#2 ++ d
  | .endFrame => 0x100#10
  | .cfg m => 0b10#2 ++ 0b000000#6 ++ m
  | .clr => 0x300#10

/-- The 10-bit command word a number is, if it has no bit above bit 9. -/
def cmdWordOfNat (n : Nat) : Option CmdWord :=
  if n < 1024 then some (BitVec.ofNat 10 n) else none

/-- Two bytes, least significant first (log 4), read as a command word; the rest of the bytes is handed on. -/
def decodeBytes : List Byte → Except Reject (Instr × List Byte)
  | lo :: hi :: rest =>
    match cmdWordOfNat (lo.toNat + 256 * hi.toNat) with
    | none => .error .widerThanTenBits
    | some w =>
      match decode w with
      | .ok i => .ok (i, rest)
      | .error r => .error r
  | _ => .error .tooFewBytes

/-- The two bytes of a command in the same container. -/
def encodeBytes (i : Instr) : List Byte :=
  [(encode i).extractLsb' 0 8, ((encode i).extractLsb' 8 2).setWidth 8]

/-- The command word that a table number of `nbits` bits is: bits above `nbits` are 0. -/
def tableWord (nbits w : Nat) : Option CmdWord := cmdWordOfNat (w % 2 ^ nbits)

/-- What the decoder reads from an opcode-table word (bit 0 the least significant bit of CW). -/
def decodeTableWord (nbits w : Nat) : Option Instr :=
  let v := w % 2 ^ nbits
  match decodeBytes [BitVec.ofNat 8 v, BitVec.ofNat 8 (v / 256)] with
  | .ok (i, _) => if v < 65536 then some i else none
  | .error _ => none

end Sys2Proof
end

