-- ==== Sys2Proof/Machine/State.lean ====
section
/-! DEFINITION. The block's whole state (10_state.md R9, R21; 60_exceptions.md R102) as plain data, the output words
(30_encoding.md R46), the reasons a step can stop, and the state after reset (R25). -/
namespace Sys2Proof.Machine

/-- PHASE (R16). The value 0b11 "is never produced by any rule; a model may make PHASE a three-valued enumeration". -/
inductive Phase where
  | idle
  | busy
  | fault
  deriving DecidableEq, Repr

/-- The three exceptions of the block (R91). RunLengthOverflow is not one of them (R95). -/
inductive Exc where
  /-- Code 0x01, raised by END (R92). -/
  | invalidInputLength
  /-- Code 0x02, raised by an illegal command word (R93). -/
  | illegalCommand
  /-- Code 0x03, raised by CFG in BUSY (R94). -/
  | configWhileBusy
  deriving DecidableEq, Repr

/-- CAUSE (R17): no fault, or the exception taken. The 8-bit codes are `Cause.code`. -/
inductive Cause where
  | noFault
  | exc (e : Exc)
  deriving DecidableEq, Repr

/-- The data of an ABORT word (R46): an exception's code, or Cancelled (0x04), which CAUSE never holds (R82, R91). -/
inductive AbortReason where
  | exc (e : Exc)
  | cancelled
  deriving DecidableEq, Repr

/-- An output word (R46). Words the block never produces (R52) cannot be written; the bits are `OutWord.bits`. -/
inductive OutWord where
  | byte (b : Byte)
  | eof
  | abort (r : AbortReason)
  deriving DecidableEq, Repr

/-- What the host puts on the block's inputs, in order: a command word (R26 item 1) or the reset event (R109). -/
inductive HostInput where
  | word (w : CmdWord)
  | rst
  deriving DecidableEq, Repr

/-- One entry of the fault record of R102: the exception, and the CMDIDX of the word that raised it (R91). -/
structure FaultRecord where
  cmdidx : Nat
  exc : Exc
  deriving DecidableEq, Repr

/-- The state: the seven registers of R9, the bookkeeping of R21 and R102, and the input still to be read. R9 says "30 bits in
all", but the widths it lists sum to 32, as SW[31:0] of R19 does: the widths are followed, not the count (DEDUCED, log 18). -/
structure State where
  /-- MODE[1:0] (R15). -/
  mode : Mode
  /-- PHASE[1:0] (R16). -/
  phase : Phase
  /-- CAUSE[7:0] (R17). -/
  cause : Cause
  /-- ACC[7:0] (R11). -/
  acc : Byte
  /-- BITCNT[2:0] (R12). -/
  bitcnt : BitVec 3
  /-- RUN (R13). -/
  run : Bool
  /-- CNT[7:0] (R14). -/
  cnt : Byte
  /-- OUT: all output words pushed since reset, oldest first (R21). The block never reads it. -/
  out : List OutWord
  /-- CMDIDX: the number of command words accepted since reset (R21). -/
  cmdidx : Nat
  /-- The fault record that CLR does not erase, oldest first (R102). -/
  faults : List FaultRecord
  /-- IN: what the host has still to send, next first (R26 item 1). The model's own field: an input, not a register. -/
  inp : List HostInput
  deriving DecidableEq, Repr

/-- Why the machine itself stops with a fault: never. The three exceptions of R91 are taken as next states (fault entry,
R99), "every accepted command completes in one step" (R102), and no word is without a meaning (R74), so this type has no
value: safe. -/
inductive Fault
  deriving DecidableEq, Repr

/-- Why a step has no meaning in this model. -/
inductive Refusal where
  /-- An instruction that has no meaning yet; no arm of `exec` is left so. Safe. -/
  | notModelled (mnemonic : String)
  /-- A reset in the middle of a run, raised by `step` on the reset event after a command has been accepted: R109 "a model
  refuses such a run rather than guess", since words still queued are lost (U6, D17). Safe. -/
  | midRunReset
  deriving DecidableEq, Repr

/-- The state after reset (R25): every register zero, OUT empty, CMDIDX 0; nothing is offered to the block. -/
def State.reset : State where
  mode := 0b00#2
  phase := .idle
  cause := .noFault
  acc := 0x00#8
  bitcnt := 0#3
  run := false
  cnt := 0x00#8
  out := []
  cmdidx := 0
  faults := []
  inp := []

end Sys2Proof.Machine
end

