-- ==== Sys2Proof/Machine/Ops.lean ====
section
/-! DEFINITION. The named operations over the streams and the registers (00_scope.md R8), taking an exception (60_exceptions.md
R99) and leaving FAULT (R100). -/
namespace Sys2Proof.Machine

/-- `OutPush(w)`: append one output word (R8, R26 item 2). -/
def State.outPush (s : State) (w : OutWord) : State := { s with out := s.out ++ [w] }

/-- `Emit(b)`: push a BYTE word (R8). -/
def State.emit (s : State) (b : Byte) : State := s.outPush (.byte b)

/-- `EmitEof()` (R8). -/
def State.emitEof (s : State) : State := s.outPush .eof

/-- `EmitAbort(c)` (R8). -/
def State.emitAbort (s : State) (r : AbortReason) : State := s.outPush (.abort r)

/-- Write PHASE. -/
def State.setPhase (s : State) (p : Phase) : State := { s with phase := p }

/-- Write MODE. -/
def State.setMode (s : State) (m : Mode) : State := { s with mode := m }

/-- Write the packer's registers ACC and BITCNT. -/
def State.setPacker (s : State) (a : Byte) (k : BitVec 3) : State := { s with acc := a, bitcnt := k }

/-- Write the encoder's registers RUN and CNT. -/
def State.setRle (s : State) (r : Bool) (c : Byte) : State := { s with run := r, cnt := c }

/-- Write CAUSE. -/
def State.setCause (s : State) (c : Cause) : State := { s with cause := c }

/-- The bookkeeping of an accepted word: CMDIDX advances by exactly 1 in every case (R20, R74). -/
def State.countCommand (s : State) : State := { s with cmdidx := s.cmdidx + 1 }

/-- Add to the fault record that CLR does not erase (R102); CMDIDX identifies the command (R91). -/
def State.recordFault (s : State) (e : Exc) : State := { s with faults := s.faults ++ [⟨s.cmdidx, e⟩] }

/-- TAKING AN EXCEPTION, `raise X(code)` (R99): PHASE <- FAULT, CAUSE <- code, EmitAbort(code); MODE, ACC, BITCNT, RUN and
CNT keep their values, nothing is saved, control goes nowhere. -/
def State.raise (s : State) (e : Exc) : State :=
  (((s.setPhase .fault).setCause (.exc e)).emitAbort (.exc e)).recordFault e

/-- Back to an empty frame, the register writes of CLR (R82), the one command that leaves FAULT (R100): PHASE, CAUSE and
every data register to 0, MODE kept, the fault record kept (R102). -/
def State.clearFrame (s : State) : State :=
  (((s.setPhase .idle).setCause .noFault).setPacker 0x00#8 0#3).setRle false 0x00#8

/-- A word consumed in FAULT (R83): no register changes, nothing is pushed, no further fault is taken. -/
def State.discard (s : State) : State := s

/-- An illegal command word (R51, R93): IllegalCommand, or discarded in FAULT (R83, R98 item 2). -/
def State.illegalWord (s : State) : State :=
  if s.phase = .fault then s.discard else s.raise .illegalCommand

/-- Does the reset event come in the middle of a run? A run has begun once a command has been accepted (R109, log 2). -/
def State.midRun (s : State) : Bool := decide (s.cmdidx ≠ 0)

/-- The reset event at the start of a run (R109): every register to its reset value, nothing pushed; `rest` is what the
host still sends. -/
def State.resetWith (rest : List HostInput) : State := { State.reset with inp := rest }

end Sys2Proof.Machine
end

