-- ==== Sys2Proof/Machine/Packer.lean ====
section
/-! DEFINITION. The Bit Packer: the functions thr, sh, pack8, pack and the machine step PkStep (40_packer.md R55 to R59). -/
namespace Sys2Proof.Machine

/-- `thr(p)` (R55): a pixel is ink exactly when its value is not 0x00. -/
def thr (p : Byte) : Bool := p != 0x00#8

/-- `sh(a, b) = ((a << 1) | zext_8(b)) & 0xFF` (R56). -/
def sh (a : Byte) (b : Bool) : Byte := (a <<< 1) ||| (BitVec.ofBool b).setWidth 8

/-- Shift the threshold bits of a row of pixels into an accumulator, first pixel first (R57). -/
def shiftIn (a : Byte) (P : List Byte) : Byte := P.foldl (fun a p => sh a (thr p)) a

/-- `pack8(p0, ..., p7)` (R57): eight steps of `sh` from 0x00, in order of arrival. -/
def pack8 (p0 p1 p2 p3 p4 p5 p6 p7 : Byte) : Byte :=
  shiftIn 0x00#8 [p0, p1, p2, p3, p4, p5, p6, p7]

/-- The packed bytes of the whole groups of a row of pixels (R58, R60); a rest of fewer than 8 pixels makes no byte. -/
def packGroups : List Byte → List Byte
  | p0 :: p1 :: p2 :: p3 :: p4 :: p5 :: p6 :: p7 :: rest => pack8 p0 p1 p2 p3 p4 p5 p6 p7 :: packGroups rest
  | _ => []

/-- `pack(P)` (R58): InvalidInputLength exactly when the length is not a multiple of 8; never padded, never truncated. -/
def pack (P : List Byte) : Except Exc (List Byte) :=
  if P.length % 8 = 0 then .ok (packGroups P) else .error .invalidInputLength

/-- `PkStep(d)` (R59): the packed byte of the group, if this pixel completes it, and the state after. -/
def pkStep (d : Byte) (s : State) : Option Byte × State :=
  let a := sh s.acc (thr d)
  if s.bitcnt = 7#3 then (some a, s.setPacker 0x00#8 0#3)
  else (none, s.setPacker a (s.bitcnt + 1#3))

/-- Successive calls of PkStep over a row of pixels: the bytes returned, in order, and the state after (R60). -/
def pkSteps : List Byte → State → List Byte × State
  | [], s => ([], s)
  | d :: ds, s =>
    let r := pkStep d s
    let q := pkSteps ds r.2
    (r.1.toList ++ q.1, q.2)

end Sys2Proof.Machine
end

