-- ==== Sys2Proof/Machine/Rle.lean ====
section
/-! DEFINITION. The Byte-Stream RLE Encoder: the function rle, the machine steps RlStep and RlFlush, the tokens of the byte
stream and the reference decoder dec (41_rle.md R64 to R66, R72; 30_encoding.md R48 to R50). -/
namespace Sys2Proof.Machine

/-- `lz(T)`: the number of leading 0x00 bytes (R64). -/
def lz : List Byte → Nat
  | [] => 0
  | b :: T => if b = 0x00#8 then lz T + 1 else 0

/-- `rle` with a bound on the number of tokens, so that the recursion is structural; `rle` gives it enough (R64). -/
def rleFuel : Nat → List Byte → List Byte
  | 0, _ => []
  | _ + 1, [] => []
  | n + 1, b :: T =>
    if b = 0x00#8 then
      let k := min (lz T) 254
      0x00#8 :: BitVec.ofNat 8 (1 + k) :: rleFuel n (T.drop k)
    else b :: rleFuel n T

/-- `rle(B)` (R64). Its defining equations are `rle_nil`, `rle_cons_literal` and `rle_cons_zero` of Laws/Rle.lean. -/
def rle (B : List Byte) : List Byte := rleFuel B.length B

/-- `RlStep(b)` (R65), cases A to E. With RUN = 1 every CNT of 254 or more is case D, as R65 allows for the unreachable
CNT = 255 (log 6). -/
def rlStep (b : Byte) (s : State) : State :=
  if s.run = false then
    if b = 0x00#8 then (s.emit 0x00#8).setRle true 0x01#8
    else s.emit b
  else
    if b = 0x00#8 then
      if s.cnt.toNat < 254 then s.setRle true (s.cnt + 0x01#8)
      else (s.emit 0xFF#8).setRle false 0x00#8
    else ((s.emit s.cnt).emit b).setRle false 0x00#8

/-- `RlFlush()` (R66): push the owed count byte of an open run. -/
def rlFlush (s : State) : State :=
  if s.run = true then (s.emit s.cnt).setRle false 0x00#8 else s

/-- Successive calls of RlStep over a row of bytes (R67). -/
def rlSteps (B : List Byte) (s : State) : State := B.foldl (fun s b => rlStep b s) s

/-- The lengths of the maximal zero runs of a byte sequence, in order (R69, R70 item 5), `k` zeros being open already. -/
def zeroRunsFrom : Nat → List Byte → List Nat
  | k, [] => if k = 0 then [] else [k]
  | k, b :: T =>
    if b = 0x00#8 then zeroRunsFrom (k + 1) T
    else if k = 0 then zeroRunsFrom 0 T else k :: zeroRunsFrom 0 T

/-- The lengths L1..Lr of R70 item 5. -/
def zeroRuns (B : List Byte) : List Nat := zeroRunsFrom 0 B

/-- The number of trailing zero bytes: the length of the trailing zero run (R70 item 4). -/
def tz (B : List Byte) : Nat := lz B.reverse

/-- The bytes of the encoded runs of one maximal zero run of length L (R69): floor(L/255) runs of count 255, then, if
L mod 255 != 0, one run of count L mod 255. -/
def encodedRuns (L : Nat) : List Byte :=
  (List.replicate (L / 255) [0x00#8, 0xFF#8]).flatten ++
    (if L % 255 = 0 then [] else [0x00#8, BitVec.ofNat 8 (L % 255)])

/-- A token of the RLE byte stream (R48). -/
inductive Token where
  /-- LIT b, one byte, b != 0x00. -/
  | lit (b : Byte)
  /-- ZRUN n, the marker 0x00 and the count byte n != 0x00. -/
  | zrun (n : Byte)
  deriving DecidableEq, Repr

/-- The ranges of R48's table: a literal is 0x01 to 0xFF, a count is 0x01 to 0xFF. -/
def Token.wellFormed : Token → Bool
  | .lit b => b != 0x00#8
  | .zrun n => n != 0x00#8

/-- The bytes of a token (R48). -/
def Token.bytes : Token → List Byte
  | .lit b => [b]
  | .zrun n => [0x00#8, n]

/-- The bytes a token stands for (R48). -/
def Token.expand : Token → List Byte
  | .lit b => [b]
  | .zrun n => List.replicate n.toNat 0x00#8

/-- The bytes of a row of tokens, with nothing before, between or after them (R48). -/
def tokenBytes (ts : List Token) : List Byte := ts.flatMap Token.bytes

/-- Canonical streams (R50, R70 item 3): a ZRUN whose count is less than 255 is never immediately followed by a ZRUN. -/
def canonical : List Token → Bool
  | .zrun n :: .zrun m :: ts => decide (n = 0xFF#8) && canonical (.zrun m :: ts)
  | _ :: ts => canonical ts
  | [] => true

/-- What `dec` answers on the two patterns no encoder produces (R52, R72, decision D24), and on a stream that is not in the
RLE format at all (R102, U15). -/
inductive DecError where
  /-- A marker with no count byte. -/
  | truncatedRun
  /-- A count byte of 0x00. -/
  | zeroCount
  /-- The output of MODE 0b10 or 0b11. -/
  | notRleFormat
  deriving DecidableEq, Repr

/-- `dec(S)` (R72), the reference decoder: a specification device, not hardware. -/
def dec : List Byte → Except DecError (List Byte)
  | [] => .ok []
  | b :: T =>
    if b = 0x00#8 then
      match T with
      | [] => .error .truncatedRun
      | n :: U =>
        if n = 0x00#8 then .error .zeroCount
        else (dec U).map (List.replicate n.toNat 0x00#8 ++ ·)
    else (dec T).map (b :: ·)

end Sys2Proof.Machine
end

