-- ==== Sys2Proof/Machine/Operands.lean ====
section
/-! DEFINITION. How MODE selects what a DATA operand is and where a byte goes (10_state.md R15; 30_encoding.md R44;
42_commands.md R75). A command has no register, address or wide immediate operand (R44). -/
namespace Sys2Proof.Machine

/-- MODE[0], BYP_PACK (R15). -/
def bypPack (m : Mode) : Bool := m.getLsbD 0

/-- MODE[1], BYP_RLE (R15). -/
def bypRle (m : Mode) : Bool := m.getLsbD 1

/-- DATA's operand through the first stage (R75): a pixel for the packer when MODE[0] = 0, otherwise a byte as it stands. -/
def packStage (d : Byte) (s : State) : Option Byte × State :=
  if bypPack s.mode then (some d, s) else pkStep d s

/-- A byte through the second stage (R75): to the encoder when MODE[1] = 0, otherwise pushed. -/
def rleStage (a : Byte) (s : State) : State :=
  if bypRle s.mode then s.emit a else rlStep a s

/-- The internal link PK (R26 item 3): what the first stage gives is consumed in the same step. -/
def deliver : Option Byte → State → State
  | some a, s => rleStage a s
  | none, s => s

/-- The end of the data through the second stage (R80 item 2): the encoder's flush when MODE[1] = 0. -/
def flushStage (s : State) : State :=
  if bypRle s.mode then s else rlFlush s

/-- END's length check (R80 item 1, R92): a partial group is left in a packing mode. -/
def lengthBad (s : State) : Bool := !bypPack s.mode && decide (s.bitcnt ≠ 0#3)

end Sys2Proof.Machine
end

