-- ==== Sys2Proof/Machine/Data.lean ====
section
/-! DEFINITION. The meaning of DATA (42_commands.md R75 to R79, R83). -/
namespace Sys2Proof.Machine

/-- What DATA d does outside FAULT (R75), in every MODE: 0b00 R76, 0b01 R77, 0b10 R78, 0b11 R79. -/
def dataEffect (d : Byte) (s : State) : State :=
  let r := packStage d (s.setPhase .busy)
  deliver r.1 r.2

/-- DATA d (R75); discarded in FAULT (R83). -/
def execData (d : Byte) (s : State) : Host.Outcome State Fault Refusal :=
  if s.phase = .fault then .next s.discard else .next (dataEffect d s)

end Sys2Proof.Machine
end

