-- ==== Sys2Proof/Machine/System.lean ====
section
/-! DEFINITION. The meanings of the system commands END, CFG and CLR (42_commands.md R80 to R83, R87). -/
namespace Sys2Proof.Machine

/-- A successful END (R80 items 2 to 4): flush the owed count byte, EOF, PHASE <- IDLE. -/
def closeFrame (s : State) : State := ((flushStage s).emitEof).setPhase .idle

/-- END (R80): InvalidInputLength on a partial group, else the frame is closed; discarded in FAULT (R83). -/
def execEnd (s : State) : Host.Outcome State Fault Refusal :=
  if s.phase = .fault then .next s.discard
  else if lengthBad s then .next (s.raise .invalidInputLength)
  else .next (closeFrame s)

/-- CFG m (R81): ConfigWhileBusy in BUSY, MODE <- m in IDLE; discarded in FAULT (R83). -/
def execCfg (m : Mode) (s : State) : Host.Outcome State Fault Refusal :=
  match s.phase with
  | .idle => .next (s.setMode m)
  | .busy => .next (s.raise .configWhileBusy)
  | .fault => .next s.discard

/-- CLR (R82), in any PHASE, FAULT included (R74 line 1, R100): ABORT 0x04 first when a frame is open, then everything but
MODE to 0. -/
def execClr (s : State) : Host.Outcome State Fault Refusal :=
  match s.phase with
  | .busy => .next (s.emitAbort .cancelled).clearFrame
  | .idle => .next s.clearFrame
  | .fault => .next s.clearFrame

end Sys2Proof.Machine
end

