-- ==== Sys2Proof/Machine/Dispatch.lean ====
section
/-! DEFINITION. One arm per command of spec/opcode_table.json. -/
namespace Sys2Proof.Machine

def exec (i : Instr) (s : State) : Host.Outcome State Fault Refusal :=
  match i with
  | .data d => Sys2Proof.Machine.execData d s
  | .endFrame => Sys2Proof.Machine.execEnd s
  | .cfg m => Sys2Proof.Machine.execCfg m s
  | .clr => Sys2Proof.Machine.execClr s

end Sys2Proof.Machine
end

