-- ==== Sys2Proof/Machine/Flags.lean ====
section
/-! DEFINITION. The codes of PHASE, CAUSE and the output words, the status word and the level output `fault` (10_state.md
R16 to R19; 30_encoding.md R46, R52; 60_exceptions.md R91, R97). There are no arithmetic condition codes (R18). -/
namespace Sys2Proof.Machine

/-- PHASE's two bits (R16). -/
def Phase.code : Phase → BitVec 2
  | .idle => 0b00#2
  | .busy => 0b01#2
  | .fault => 0b10#2

/-- The cause codes of R91. -/
def Exc.code : Exc → Byte
  | .invalidInputLength => 0x01#8
  | .illegalCommand => 0x02#8
  | .configWhileBusy => 0x03#8

/-- CAUSE's eight bits (R17). -/
def Cause.code : Cause → Byte
  | .noFault => 0x00#8
  | .exc e => e.code

/-- The data field of an ABORT word (R46): the exception's code or 0x04 Cancelled. -/
def AbortReason.code : AbortReason → Byte
  | .exc e => e.code
  | .cancelled => 0x04#8

/-- The ten bits `kind : data` of an output word (R46). -/
def OutWord.bits : OutWord → OutBits
  | .byte b => 0b00#2 ++ b
  | .eof => 0x100#10
  | .abort r => 0b10#2 ++ r.code

/-- The reason an ABORT word's data names; other data is never produced (R46). -/
def AbortReason.ofCode (c : Byte) : Option AbortReason :=
  if c = 0x01#8 then some (.exc .invalidInputLength)
  else if c = 0x02#8 then some (.exc .illegalCommand)
  else if c = 0x03#8 then some (.exc .configWhileBusy)
  else if c = 0x04#8 then some .cancelled
  else none

/-- An output word as a sink reads it. Words that are not this block's output (R52, U3: kind 0b11, EOF with data, ABORT
with data 0x00 or above 0x04) are refused. -/
def OutWord.ofBits (w : OutBits) : Option OutWord :=
  if w.extractLsb' 8 2 = 0b00#2 then some (.byte (w.extractLsb' 0 8))
  else if w.extractLsb' 8 2 = 0b01#2 then
    if w.extractLsb' 0 8 = 0x00#8 then some .eof else none
  else if w.extractLsb' 8 2 = 0b10#2 then
    match AbortReason.ofCode (w.extractLsb' 0 8) with
    | some r => some (.abort r)
    | none => none
  else none

/-- The status word, SW = CAUSE : ACC : CNT : BITCNT : RUN : MODE : PHASE (R19); reading it has no side effect. -/
def State.status (s : State) : StatusWord :=
  s.cause.code ++ s.acc ++ s.cnt ++ s.bitcnt ++ BitVec.ofBool s.run ++ s.mode ++ s.phase.code

/-- The level output `fault`: 1 exactly while PHASE = FAULT (R18, R97). -/
def State.faultLine (s : State) : Bool := decide (s.phase = .fault)

end Sys2Proof.Machine
end

