-- ==== Sys2Proof/Machine/Accept.lean ====
section
/-! DEFINITION. One accepted command word: the step function of 42_commands.md R74, `step : State x CW -> State x seq(OW)`
(10_state.md R9), with the reading of the input stream around it. -/
namespace Sys2Proof.Machine

/-- One accepted command word (R74): CMDIDX advances by 1 in every case; the word's command is executed, and an illegal
word takes IllegalCommand (or is discarded in FAULT). -/
def accept (w : CmdWord) (s : State) : Host.Outcome State Fault Refusal :=
  match decode w with
  | .ok i => exec i s.countCommand
  | .error _ => .next s.countCommand.illegalWord

/-- The output words a step pushed, `seq(OW)` of R9: what OUT has more than before. -/
def pushed (before after : State) : List OutWord := after.out.drop before.out.length

/-- The next item of the host's input (R8 `InPop()`, R109): a command word is accepted; the reset event is refused in the
middle of a run; with nothing offered the block keeps its state (R108). -/
def takeInput (s : State) : Host.Outcome State Fault Refusal :=
  match s.inp with
  | [] => .next s
  | .word w :: rest => accept w { s with inp := rest }
  | .rst :: rest => if s.midRun then .refused .midRunReset else .next (State.resetWith rest)

/-- Put a command word where the next step reads it: at the head of IN. -/
def State.offer (w : CmdWord) (s : State) : State := { s with inp := .word w :: s.inp }

end Sys2Proof.Machine
end

