-- ==== Sys2Proof/Machine/Step.lean ====
section
/-! DEFINITION. One step of the machine (42_commands.md R74), and the word the next step runs. -/
namespace Sys2Proof.Machine

/-- One step: the next item of the command stream, if there is one (R74, R108, R109). -/
def step (s : State) : Host.Outcome State Fault Refusal := takeInput s

/-- `s` with a table word offered as the next command. A number of more than 10 bits is no command word and cannot be put
on the command port (log 4): then nothing is offered. -/
def State.withFetchWord (s : State) (nbits w : Nat) : State :=
  match tableWord nbits w with
  | some cw => s.offer cw
  | none => s

end Sys2Proof.Machine
end

