-- ==== Sys2Proof/Machine/Asm.lean ====
section
/-! DEFINITION. The assembler text of 30_encoding.md R53 and the pseudo-instructions of R54, used only to write command
streams (decision D25). -/
namespace Sys2Proof.Machine

/-- `PIX8 b`: the pixel for bit i of b is 0xFF or 0x00 (R54). -/
def pix (b : Byte) (i : Nat) : Byte := if b.getLsbD i then 0xFF#8 else 0x00#8

/-- The eight pixels of `PIX8 b`, v7 first (R54). -/
def pix8 (b : Byte) : List Byte := [pix b 7, pix b 6, pix b 5, pix b 4, pix b 3, pix b 2, pix b 1, pix b 0]

/-- The command words a line expands to (R53, R54). -/
def expandLine : AsmLine → List CmdWord
  | .data n => [encode (.data (BitVec.ofNat 8 n))]
  | .endFrame => [encode .endFrame]
  | .cfg m => [encode (.cfg (BitVec.ofNat 2 m))]
  | .clr => [encode .clr]
  | .word w => [BitVec.ofNat 10 w]
  | .rep k n => List.replicate k (encode (.data (BitVec.ofNat 8 n)))
  | .pix8 b => (pix8 (BitVec.ofNat 8 b)).map (fun v => encode (.data v))
  | .zero k => List.replicate k (encode (.data 0x00#8))

/-- Why a line is not assembled. -/
inductive AsmError where
  | unknownLine
  | badNumber
  | outOfRange
  deriving DecidableEq, Repr

/-- End a word of the line. -/
def endWord (cur : List Char) : List (List Char) := if cur = [] then [] else [cur]

/-- A line's words: blanks separate, a comma is a word of its own, `;` starts a comment (R53; log 14 for the blanks). -/
def lexLine : List Char → List Char → List (List Char)
  | cur, [] => endWord cur
  | cur, c :: cs =>
    if c = ';' then endWord cur
    else if c = ' ' ∨ c = '\t' ∨ c = '\r' then endWord cur ++ lexLine [] cs
    else if c = ',' then endWord cur ++ [','] :: lexLine [] cs
    else lexLine (cur ++ [c]) cs

/-- One digit of a number in a base. -/
def digit (base : Nat) (c : Char) : Option Nat :=
  let n := c.toNat
  let v := if 48 ≤ n ∧ n ≤ 57 then n - 48
    else if 65 ≤ n ∧ n ≤ 70 then n - 55
    else if 97 ≤ n ∧ n ≤ 102 then n - 87 else base
  if v < base then some v else none

/-- The digits of a number, most significant first. -/
def digits (base : Nat) : Nat → List Char → Option Nat
  | acc, [] => some acc
  | acc, c :: cs =>
    match digit base c with
    | some v => digits base (acc * base + v) cs
    | none => none

/-- A number: decimal, or hexadecimal with `0x`, or binary with `0b` (R53). -/
def number : List Char → Except AsmError Nat
  | '0' :: 'x' :: c :: cs => (digits 16 0 (c :: cs)).elim (.error .badNumber) .ok
  | '0' :: 'b' :: c :: cs => (digits 2 0 (c :: cs)).elim (.error .badNumber) .ok
  | c :: cs => (digits 10 0 (c :: cs)).elim (.error .badNumber) .ok
  | [] => .error .badNumber

/-- CFG's operand: a number or a mode's name (R53). -/
def modeOperand (w : List Char) : Except AsmError Nat :=
  if w = "PACK_RLE".toList then .ok 0
  else if w = "RLE_ONLY".toList then .ok 1
  else if w = "PACK_ONLY".toList then .ok 2
  else if w = "PASS".toList then .ok 3
  else number w

/-- The words of one line as a line of the assembler; `none` for a blank line (R53). Mnemonics are upper case. -/
def parseWords : List (List Char) → Except AsmError (Option AsmLine)
  | [] => .ok none
  | [m] =>
    if m = "END".toList then .ok (some .endFrame)
    else if m = "CLR".toList then .ok (some .clr)
    else .error .unknownLine
  | [m, a] =>
    if m = "DATA".toList then (number a).map (fun n => some (.data n))
    else if m = "CFG".toList then (modeOperand a).map (fun n => some (.cfg n))
    else if m = ".word".toList then (number a).map (fun n => some (.word n))
    else if m = "PIX8".toList then (number a).map (fun n => some (.pix8 n))
    else if m = "ZERO".toList then (number a).map (fun n => some (.zero n))
    else .error .unknownLine
  | [m, a, [','], b] =>
    if m = "REP".toList then
      match number a, number b with
      | .ok k, .ok n => .ok (some (.rep k n))
      | _, _ => .error .badNumber
    else .error .unknownLine
  | _ => .error .unknownLine

/-- One line of text as command words, its operands in range (R53). -/
def assembleLine (cs : List Char) : Except AsmError (List CmdWord) :=
  match parseWords (lexLine [] cs) with
  | .ok none => .ok []
  | .ok (some l) => if l.wellFormed then .ok (expandLine l) else .error .outOfRange
  | .error e => .error e

/-- The lines of a text. -/
def splitLines : List Char → List Char → List (List Char)
  | cur, [] => [cur]
  | cur, c :: cs => if c = '\n' then cur :: splitLines [] cs else splitLines (cur ++ [c]) cs

/-- Lines of text as one command stream. -/
def assembleLines : List (List Char) → Except AsmError (List CmdWord)
  | [] => .ok []
  | l :: ls =>
    match assembleLine l, assembleLines ls with
    | .ok ws, .ok vs => .ok (ws ++ vs)
    | .error e, _ => .error e
    | .ok _, .error e => .error e

/-- A text as a command stream (R53, R54). -/
def assemble (text : String) : Except AsmError (List CmdWord) := assembleLines (splitLines [] text.toList)

end Sys2Proof.Machine
end

