-- ==== Sys2Proof/Machine/Codec.lean ====
section
/-! DEFINITION. The function F_m of 42_commands.md R89: what a frame's bytes must be, by MODE. -/
namespace Sys2Proof.Machine

/-- The bytes that reach the second stage for a frame's data (R89): the data itself, or its packing. -/
def firstStage (m : Mode) (D : List Byte) : Except Exc (List Byte) :=
  if bypPack m then .ok D else pack D

/-- F_m(D) (R89): rle(pack(D)), rle(D), pack(D) or D, or InvalidInputLength. -/
def codec (m : Mode) (D : List Byte) : Except Exc (List Byte) :=
  (firstStage m D).map (fun B => if bypRle m then B else rle B)

end Sys2Proof.Machine
end

