-- ==== Sys2Proof/Config.lean ====
section
/-! DEFINITION. The open parameters of 00_scope.md rule R6, taken as arguments; no rule of the step function depends on
one of them. The fixed rows of R6 (PIXW, GROUP, BYTEW, MARKER, CAP, THRESH, CWW, OWW, SWW) stand in the types of Word.lean
and in the rules that use them. The spec leaves no result of a command open. Its one free value is on the status port during the cycles of a step (U11). -/
namespace Sys2Proof.Config

/-- The rows of rule R6 whose status is "open". -/
structure Params where
  /-- IMG_W, not enforced by the block (R6, decision D11). -/
  imgW : Nat := 128
  /-- IMG_H, not enforced by the block (R6, decision D11). -/
  imgH : Nat := 64
  /-- MAXLEN, the largest number of DATA commands in a frame; `none` is unbounded (R6, decision D11). -/
  maxLen : Option Nat := none
  /-- OQ_DEPTH, the output queue's depth in words (R6, R41, decision D19). -/
  oqDepth : Nat
  /-- CYCLES_PER_CMD, clock edges from acceptance of a command to readiness for the next (R6, R118, decision D20). -/
  cyclesPerCmd : Nat
  deriving DecidableEq, Repr

/-- The limits rule R6 sets on the open parameters: OQ_DEPTH at least 2, CYCLES_PER_CMD at least 1. -/
def Params.valid (P : Params) : Bool := decide (2 ≤ P.oqDepth) && decide (1 ≤ P.cyclesPerCmd)

/-- How many pixels one image of the format has (R6: 128 by 64 makes 8192). -/
def Params.pixels (P : Params) : Nat := P.imgW * P.imgH

/-- A free value: what the status port shows during the cycles of a step is any value (93_implementation_defined.md U11, R19).
It is applied to the CMDIDX of the command and the number of edges still to pass, so nothing ties two such edges together
(log 12). No rule of the step function reads it. -/
opaque statusDuringStep : Nat → Nat → StatusWord

end Sys2Proof.Config
end

