-- ==== Sys2Proof/Machine/Ports.lean ====
section
/-! DEFINITION. The port level of 20_memory.md R41, a layer over State that the step function leaves out (10_state.md R22,
decision D30): the output queue OQ, the two ready/valid handshakes, the reset input, one rising clock edge at a time.
The open parameters OQ_DEPTH and CYCLES_PER_CMD are arguments (R6). -/
namespace Sys2Proof.Machine

/-- The inputs at one rising clock edge (R41): `rst`, `in_valid` with `in_word`, `out_ready`. -/
structure PortIn where
  rst : Bool
  /-- `some w` is in_valid = 1 with in_word = w. -/
  inWord : Option CmdWord
  outReady : Bool
  deriving DecidableEq, Repr

/-- The block with its queue. -/
structure PortState where
  /-- The registers and the bookkeeping (its `inp` is not used at this level). -/
  core : State
  /-- OQ: words pushed and not yet taken, oldest first (R22, R41). -/
  oq : List OutWord
  /-- The words the sink has taken since the last reset, oldest first (log 11). -/
  taken : List OutWord
  /-- Edges still to pass before `in_ready` may be 1 again (CYCLES_PER_CMD, R6; log 10). -/
  wait : Nat
  deriving DecidableEq, Repr

/-- The outputs between two edges (R41). -/
structure PortOut where
  inReady : Bool
  /-- `some w` is out_valid = 1 with out_word = w. -/
  outWord : Option OutWord
  status : StatusWord
  fault : Bool
  deriving DecidableEq, Repr

/-- After reset (R25, R109): registers at their reset values, OQ empty. -/
def PortState.reset : PortState := { core := State.reset, oq := [], taken := [], wait := 0 }

/-- `in_ready` (R41): the last command's cycles have passed and at least 2 entries of OQ are free. -/
def PortState.inReady (P : Config.Params) (p : PortState) : Bool :=
  decide (p.wait = 0) && decide (p.oq.length + 2 ≤ P.oqDepth)

/-- The status port (R19, R41): SW between steps; during the cycles of a step a free value (U11, log 12). -/
def PortState.statusPort (p : PortState) : StatusWord :=
  if p.wait = 0 then p.core.status else Config.statusDuringStep p.core.cmdidx p.wait

/-- The output ports (R41, R97). -/
def PortState.outputs (P : Config.Params) (p : PortState) : PortOut :=
  { inReady := p.inReady P, outWord := p.oq.head?, status := p.statusPort, fault := p.core.faultLine }

/-- The output transfer of an edge (R41): the oldest word of OQ moves when out_valid and out_ready are both 1. -/
def PortState.transfer (outReady : Bool) (p : PortState) : PortState :=
  match outReady, p.oq with
  | true, w :: q => { p with oq := q, taken := p.taken ++ [w] }
  | _, _ => p

/-- A command word accepted at an edge (R41, R74): the step's words enter OQ, and the block is busy for CYCLES_PER_CMD. -/
def PortState.acceptWord (P : Config.Params) (w : CmdWord) (p : PortState) : Host.Outcome PortState Fault Refusal :=
  match accept w p.core with
  | .next c => .next { p with core := c, oq := p.oq ++ pushed p.core c, wait := P.cyclesPerCmd - 1 }
  | .fault f => .fault f
  | .refused r => .refused r

/-- The reset input at an edge (R109): registers to reset, OQ emptied, nothing pushed, a command offered at the same edge
not accepted. -/
def PortState.resetEdge (_ : PortState) : PortState := PortState.reset

/-- One rising clock edge. `rst` has priority (R98 item 1, R109); `in_ready` is the value before the edge; a word offered and
not accepted changes nothing and is offered again by the host (R41). -/
def clockEdge (P : Config.Params) (i : PortIn) (p : PortState) : Host.Outcome PortState Fault Refusal :=
  if i.rst then .next p.resetEdge
  else
    match i.inWord with
    | some w =>
      if p.inReady P then (p.transfer i.outReady).acceptWord P w
      else .next { p.transfer i.outReady with wait := p.wait - 1 }
    | none => .next { p.transfer i.outReady with wait := p.wait - 1 }

/-- Successive clock edges. -/
def runEdges (P : Config.Params) : List PortIn → PortState → Host.Outcome PortState Fault Refusal
  | [], p => .next p
  | i :: is, p =>
    match clockEdge P i p with
    | .next q => runEdges P is q
    | .fault f => .fault f
    | .refused r => .refused r

/-- OQ holds exactly the words pushed and not yet taken, within its depth (R22, R35 d, R41). -/
structure PortState.Inv (P : Config.Params) (p : PortState) : Prop where
  history : p.core.out = p.taken ++ p.oq
  depth : p.oq.length ≤ P.oqDepth

end Sys2Proof.Machine
end

