-- ==== Sys2Proof/Machine/Sink.lean ====
section
/-! DEFINITION. What the sink makes of OUT: frames, which are valid, and what a consumer may decode (20_memory.md R28;
60_exceptions.md R102; 70_reset_and_hazards.md R112, R115). -/
namespace Sys2Proof.Machine

/-- The closing word of a frame (R28): EOF, or ABORT with its reason. -/
inductive Closing where
  | eof
  | abort (r : AbortReason)
  deriving DecidableEq, Repr

/-- A frame on the output side (R28): the data of its BYTE words in order, and its closing word. -/
structure Frame where
  bytes : List Byte
  closing : Closing
  deriving DecidableEq, Repr

/-- "A frame is valid if and only if its closing word is EOF" (R28). -/
def Frame.valid (f : Frame) : Bool := decide (f.closing = .eof)

/-- Cut output words into frames (R28). `opened` is the byte stream of the frame begun so far; what is left of it when the
words end belongs to no frame yet (R111, U12). -/
def sinkFrames : List Byte → List OutWord → List Frame × List Byte
  | opened, [] => ([], opened)
  | opened, .byte b :: ws => sinkFrames (opened ++ [b]) ws
  | opened, .eof :: ws =>
    let r := sinkFrames [] ws
    (⟨opened, .eof⟩ :: r.1, r.2)
  | opened, .abort c :: ws =>
    let r := sinkFrames [] ws
    (⟨opened, .abort c⟩ :: r.1, r.2)

/-- The byte streams the sink keeps: those of valid frames; a frame closed by ABORT is discarded, "whatever it contains"
(R28, R112). -/
def keptStreams (ws : List OutWord) : List (List Byte) :=
  (((sinkFrames [] ws).1).filter Frame.valid).map Frame.bytes

/-- A consumer that knows the mode out of band (R115) decodes a frame's bytes: `dec` for MODE 0b00 and 0b01, refused for
MODE 0b10 and 0b11, whose output is not in the RLE format (R102, U15). -/
def consumerDecode (m : Mode) (S : List Byte) : Except DecError (List Byte) :=
  if bypRle m then .error .notRleFormat else dec S

end Sys2Proof.Machine
end

