-- ==== Sys2Proof/Safety.lean ====
section
/-! DEFINITION. What every reachable state satisfies (10_state.md R24) and what a safe run is (60_exceptions.md R102). -/
namespace Sys2Proof.Machine

/-- The invariants of R24 that speak of one state. Item 2's PHASE != 0b11 and CAUSE in 0x00 to 0x03 hold by the types of
PHASE and CAUSE; item 4's count of DATA commands and item 7 speak of runs and steps and are stated apart. -/
structure State.Inv (s : State) : Prop where
  /-- Item 1. -/
  idle_clear : s.phase = .idle →
    s.acc = 0x00#8 ∧ s.bitcnt = 0#3 ∧ s.run = false ∧ s.cnt = 0x00#8 ∧ s.cause = .noFault
  /-- Item 2. -/
  fault_iff_cause : s.phase = .fault ↔ s.cause ≠ .noFault
  /-- Item 3, RUN = 0. -/
  closed_cnt : s.run = false → s.cnt = 0x00#8
  /-- Item 3, RUN = 1. -/
  open_cnt : s.run = true → 1 ≤ s.cnt.toNat ∧ s.cnt.toNat ≤ 254
  /-- Item 4, first sentence. -/
  packer_bypassed : bypPack s.mode = true → s.acc = 0x00#8 ∧ s.bitcnt = 0#3
  /-- Item 5. -/
  acc_bound : s.acc.toNat < 2 ^ s.bitcnt.toNat
  /-- Item 6. -/
  rle_bypassed : bypRle s.mode = true → s.run = false ∧ s.cnt = 0x00#8

/-- What OUT, CMDIDX and the fault record say beside the registers (R13, R21, R28, R99, R102): the model's bookkeeping. -/
structure State.HistInv (s : State) : Prop where
  /-- While a run is open in an open frame, OUT ends with its marker (R13). -/
  open_marker : s.phase = .busy → s.run = true → s.out.getLast? = some (.byte 0x00#8)
  /-- Outside an open frame OUT does not end inside a frame (R28). -/
  closed_frame : s.phase ≠ .busy → ∀ b, s.out.getLast? ≠ some (.byte b)
  /-- In FAULT, CAUSE is the last exception recorded, and its ABORT word is OUT's last (R99). -/
  fault_recorded : ∀ e, s.cause = .exc e →
    s.out.getLast? = some (.abort (.exc e)) ∧ (s.faults.getLast?).map FaultRecord.exc = some e
  /-- A record names a command accepted since reset (R91). -/
  records_accepted : ∀ r ∈ s.faults, 1 ≤ r.cmdidx ∧ r.cmdidx ≤ s.cmdidx
  /-- Before the first command the machine is as reset left it (R25). -/
  fresh : s.cmdidx = 0 → { s with inp := [] } = State.reset

/-- The command words DATA d0, ..., DATA d(n-1), as the host sends them. -/
def dataInputs (D : List Byte) : List HostInput := D.map (fun d => .word (encode (.data d)))

/-- One frame's command words: its DATA commands and END (R28, R89). -/
def frameInputs (D : List Byte) : List HostInput := dataInputs D ++ [.word (encode .endFrame)]

/-- One accepted command word as a function on states: `accept` answers a next state for every word (R74). -/
def feed (s : State) (w : CmdWord) : State :=
  match accept w s with
  | .next t => t
  | _ => s

/-- The state after a sequence of command words (R24: "reachable from reset by any sequence of command words"). -/
def feedAll (s : State) (ws : List CmdWord) : State := ws.foldl feed s

/-- Is this word a DATA command that the block executes, not discards? -/
def acceptsData (s : State) (w : CmdWord) : Bool :=
  match decode w with
  | .ok (.data _) => decide (s.phase ≠ .fault)
  | _ => false

/-- The number of DATA commands accepted in the frame that is open after the words, `n` before them (R24 item 4): any other
word closes the frame or leaves none open. -/
def frameDataCount : State → Nat → List CmdWord → Nat
  | _, n, [] => n
  | s, n, w :: ws => frameDataCount (feed s w) (if acceptsData s w then n + 1 else 0) ws

/-- "No fault occurred" (R102): read from the record that CLR does not erase, so that it "cannot be made true by clearing". -/
def State.neverFaulted (s : State) : Prop := s.faults = []

/-- A run that has not been refused and in which no fault occurred (R102). -/
def safeRun (k : Nat) (s : State) : Prop := ∃ t, Sys2Proof.core.run k s = .next t ∧ t.neverFaulted

end Sys2Proof.Machine
end

