-- ==== Sys2Proof/Certificates/Slice0/Obligations.lean ====
section
/-! DEFINITION. The statements for the provers, each from the numbered rules of spec/. -/

open Sys2Proof Sys2Proof.Machine

/-! ### Reset and invariants -/

/-- R25: after reset every register holds zero, SW = 0, OUT is empty, CMDIDX = 0 and the output queue is empty. -/
def Obligations.ResetIsAllZero : Prop :=
  State.reset.mode = 0b00#2 ∧ State.reset.phase = .idle ∧ State.reset.cause.code = 0x00#8 ∧
  State.reset.acc = 0x00#8 ∧ State.reset.bitcnt = 0#3 ∧ State.reset.run = false ∧ State.reset.cnt = 0x00#8 ∧
  State.reset.status = 0x00000000#32 ∧ State.reset.out = [] ∧ State.reset.cmdidx = 0 ∧
  PortState.reset.core = State.reset ∧ PortState.reset.oq = []

/-- The invariants of R24 (an inference the spec marks as its own) and of the model's bookkeeping (log 7) hold after reset. -/
def Obligations.ResetMeetsInvariants : Prop := State.reset.Inv ∧ State.reset.HistInv

/-- Every step, from every state that meets the one-state items of R24, gives a state that meets them. (The spec marks R24 as
its own inference, "derived: by induction over" the command rules.) -/
def Obligations.StepKeepsInv : Prop :=
  ∀ s t : State, s.Inv → step s = .next t → t.Inv

/-- Every step keeps what OUT, CMDIDX and the fault record say beside the registers (R13, R28, R99, R102; the record's form
and its numbering are the model's choice, log 7). -/
def Obligations.StepKeepsHistInv : Prop :=
  ∀ s t : State, s.Inv → s.HistInv → step s = .next t → t.HistInv

/-- R24, all seven items, of every state reachable from reset by any sequence of command words. (The spec marks R24 as its own
inference.) -/
def Obligations.ReachableStates : Prop :=
  ∀ ws : List CmdWord,
    let s := feedAll State.reset ws
    s.Inv ∧ s.phase.code ≠ 0b11#2 ∧ s.cause.code.toNat ≤ 3 ∧ (s.phase = .fault ↔ s.cause.code ≠ 0x00#8) ∧
    (bypPack s.mode = false → s.phase = .busy → s.bitcnt.toNat = frameDataCount State.reset 0 ws % 8) ∧
    (∀ w, (feed s w).mode ≠ s.mode → s.phase = .idle ∧ ∃ m, decode w = .ok (.cfg m))

/-! ### Encodings -/

/-- R42 to R44: decoding a command's word, or its two bytes (the container is the model's choice, log 4) with anything after
them, gives the command back. -/
def Obligations.DecodeOfEncode : Prop :=
  ∀ i : Instr, i.wellFormed = true →
    decode (encode i) = .ok i ∧ ∀ rest, decodeBytes (encodeBytes i ++ rest) = .ok (i, rest)

/-- R43: two words never stand for one command: a word that decodes is the word of what it decodes to. -/
def Obligations.EncodeOfDecode : Prop :=
  ∀ (w : CmdWord) (i : Instr), decode w = .ok i → encode i = w

/-- R43: the exact words of the four commands, by field and by the table's mask and match; no word fits two rows. -/
def Obligations.OpcodeTable : Prop :=
  (∀ w d, decode w = .ok (.data d) ↔ w = 0b00#2 ++ d) ∧
  (∀ w, decode w = .ok .endFrame ↔ w = 0x100#10) ∧
  (∀ w m, decode w = .ok (.cfg m) ↔ w = 0b10#2 ++ 0b000000#6 ++ m) ∧
  (∀ w, decode w = .ok .clr ↔ w = 0x300#10) ∧
  (∀ w, (∃ d, decode w = .ok (.data d)) ↔ w &&& 0x300#10 = 0x000#10) ∧
  (∀ w, decode w = .ok .endFrame ↔ w &&& 0x3FF#10 = 0x100#10) ∧
  (∀ w, (∃ m, decode w = .ok (.cfg m)) ↔ w &&& 0x3FC#10 = 0x200#10) ∧
  (∀ w, decode w = .ok .clr ↔ w &&& 0x3FF#10 = 0x300#10) ∧
  (∀ w : CmdWord, (opcodeTable.filter (fun r => r.fits w)).length ≤ 1) ∧
  (∀ w : CmdWord, (∃ r, decode w = .error r) ↔ w.legal = false)

/-- R51: the illegal words, all 762; accepting one outside FAULT raises IllegalCommand, in FAULT it is discarded. -/
def Obligations.IllegalWords : Prop :=
  (∀ w : CmdWord, (∃ r, decode w = .error r) ↔
    (0x101 ≤ w.toNat ∧ w.toNat ≤ 0x1FF) ∨ (0x204 ≤ w.toNat ∧ w.toNat ≤ 0x2FF) ∨
    (0x301 ≤ w.toNat ∧ w.toNat ≤ 0x3FF)) ∧
  ((List.range 1024).filter (fun n => !(CmdWord.legal (BitVec.ofNat 10 n)))).length = 762 ∧
  (∀ (w : CmdWord) (r : Reject) (s : State), decode w = .error r →
    (s.phase ≠ .fault → accept w s = .next (s.countCommand.raise .illegalCommand)) ∧
    (s.phase = .fault → accept w s = .next { s with cmdidx := s.cmdidx + 1 }))

/-- Words written out from R43's bits (spec/95_test_vectors.md section 2.10), through the two-byte container (log 4). -/
def Obligations.TableWordsDecode : Prop :=
  decodeTableWord 16 0b0011001000 = some (.data 200#8) ∧ decodeTableWord 16 0b0011111111 = some (.data 255#8) ∧
  decodeTableWord 16 0b0100000000 = some .endFrame ∧ decodeTableWord 16 0b1000000010 = some (.cfg 2#2) ∧
  decodeTableWord 16 0b1100000000 = some .clr ∧ decodeTableWord 16 0b0100000001 = none ∧
  decodeTableWord 16 0b1000000100 = none ∧ decodeTableWord 16 0b1110000000 = none

/-- R46: the output words' bits, and who pushes a word that is not a BYTE (the part of R46 the spec marks as its own inference);
R52, U3: a sink refuses every other word. -/
def Obligations.OutputWords : Prop :=
  (∀ b : Byte, (OutWord.byte b).bits.toNat = b.toNat) ∧ OutWord.eof.bits = 0x100#10 ∧
  (∀ r : AbortReason, 0x201 ≤ (OutWord.abort r).bits.toNat ∧ (OutWord.abort r).bits.toNat ≤ 0x204) ∧
  (∀ o : OutWord, o.bits.extractLsb' 8 2 ≠ 0b11#2 ∧ OutWord.ofBits o.bits = some o) ∧
  (∀ b : OutBits, (OutWord.ofBits b).isNone = true ↔
    (0x101 ≤ b.toNat ∧ b.toNat ≤ 0x1FF) ∨ b.toNat = 0x200 ∨ 0x205 ≤ b.toNat) ∧
  (∀ (w : CmdWord) (s t : State), accept w s = .next t →
    (.eof ∈ pushed s t → w = 0x100#10 ∧ t.phase = .idle) ∧
    (∀ e, .abort (.exc e) ∈ pushed s t → s.phase ≠ .fault ∧ t.phase = .fault ∧ t.cause = .exc e) ∧
    (.abort .cancelled ∈ pushed s t → w = 0x300#10 ∧ s.phase = .busy))

/-- R19: the fields of the status word, all seven registers visible: equal status words mean equal registers. -/
def Obligations.StatusWord : Prop :=
  (∀ s : State,
    s.status.extractLsb' 0 2 = s.phase.code ∧ s.status.extractLsb' 2 2 = s.mode ∧
    s.status.extractLsb' 4 1 = BitVec.ofBool s.run ∧ s.status.extractLsb' 5 3 = s.bitcnt ∧
    s.status.extractLsb' 8 8 = s.cnt ∧ s.status.extractLsb' 16 8 = s.acc ∧
    s.status.extractLsb' 24 8 = s.cause.code) ∧
  State.reset.status = 0x00000000#32 ∧
  (∀ s t : State, s.status = t.status →
    s.mode = t.mode ∧ s.phase = t.phase ∧ s.cause = t.cause ∧ s.acc = t.acc ∧ s.bitcnt = t.bitcnt ∧
    s.run = t.run ∧ s.cnt = t.cnt)

/-! ### The packer -/

/-- R55: thr is 0 exactly on 0x00, and is the OR of the eight bits (the OR is an inference the spec marks as its own). -/
def Obligations.ThrIsOrOfBits : Prop :=
  ∀ p : Byte, (thr p = false ↔ p = 0x00#8) ∧
    thr p = (p.getLsbD 7 || p.getLsbD 6 || p.getLsbD 5 || p.getLsbD 4 || p.getLsbD 3 || p.getLsbD 2 ||
      p.getLsbD 1 || p.getLsbD 0)

/-- R56: one shift-accumulate step, by fields and as an integer. -/
def Obligations.ShiftAccumulate : Prop :=
  ∀ (a : Byte) (b : Bool),
    (sh a b).extractLsb' 1 7 = a.extractLsb' 0 7 ∧ (sh a b).getLsbD 0 = b ∧
    (sh a b).toNat = (2 * a.toNat + b.toNat) % 256

/-- R30, R47: pixel i of a group lands in bit 7 - i of the packed byte, most significant bit first; the worked values. -/
def Obligations.PackedBitOrder : Prop :=
  (∀ (p0 p1 p2 p3 p4 p5 p6 p7 : Byte) (i : Nat), i < 8 →
    (pack8 p0 p1 p2 p3 p4 p5 p6 p7).getLsbD (7 - i) = thr ([p0, p1, p2, p3, p4, p5, p6, p7].getD i 0x00#8)) ∧
  pack8 1 0 0 0 0 0 0 0 = 0x80#8 ∧ pack8 0 0 0 0 0 0 0 1 = 0x01#8

/-- The closed form of a packed byte in R57 (an inference the spec marks as its own). -/
def Obligations.Pack8ClosedForm : Prop :=
  ∀ p0 p1 p2 p3 p4 p5 p6 p7 : Byte,
    (pack8 p0 p1 p2 p3 p4 p5 p6 p7).toNat =
      (thr p0).toNat * 128 + (thr p1).toNat * 64 + (thr p2).toNat * 32 + (thr p3).toNat * 16 +
      (thr p4).toNat * 8 + (thr p5).toNat * 4 + (thr p6).toNat * 2 + (thr p7).toNat

/-- R61: the accumulator's value at the start of a group has no effect on the group's packed byte. (The spec marks R61 as its
own inference.) -/
def Obligations.StartValueDoesNotMatter : Prop :=
  ∀ (a : Byte) (P : List Byte), 8 ≤ P.length → shiftIn a P = shiftIn 0x00#8 P

/-- R58: pack fails with InvalidInputLength exactly when the length is not a multiple of 8; otherwise byte k is pack8 of
pixels 8k to 8k + 7. -/
def Obligations.PackRule : Prop :=
  ∀ P : List Byte,
    (pack P = .error .invalidInputLength ↔ P.length % 8 ≠ 0) ∧
    (P.length % 8 = 0 → ∃ B, pack P = .ok B ∧ B.length = P.length / 8 ∧ ∀ k, k < P.length / 8 →
      B[k]? = some (pack8 (P.getD (8 * k) 0) (P.getD (8 * k + 1) 0) (P.getD (8 * k + 2) 0) (P.getD (8 * k + 3) 0)
        (P.getD (8 * k + 4) 0) (P.getD (8 * k + 5) 0) (P.getD (8 * k + 6) 0) (P.getD (8 * k + 7) 0)))

/-- R63: length, only zero-ness matters, concatenation, zero, bit law. (The spec marks all but the length law as its own
inference.) -/
def Obligations.PackLaws : Prop :=
  (∀ P B, pack P = .ok B → B.length = P.length / 8) ∧
  (∀ P Q : List Byte, P.map thr = Q.map thr → pack P = pack Q) ∧
  (∀ P Q : List Byte, P.length % 8 = 0 →
    (∀ A B, pack P = .ok A → pack Q = .ok B → pack (P ++ Q) = .ok (A ++ B)) ∧
    (pack Q = .error .invalidInputLength → pack (P ++ Q) = .error .invalidInputLength)) ∧
  (∀ k, pack (List.replicate (8 * k) 0x00#8) = .ok (List.replicate k 0x00#8)) ∧
  (∀ P B k, pack P = .ok B → k < B.length →
    (B[k]? = some 0x00#8 ↔ ∀ i, i < 8 → P[8 * k + i]? = some 0x00#8)) ∧
  (∀ P B k i, pack P = .ok B → k < B.length → i < 8 →
    (B.getD k 0).getLsbD (7 - i) = thr (P.getD (8 * k + i) 0))

/-- R60: PkStep over n pixels from a group boundary returns the packing of the whole groups and leaves BITCNT = n mod 8;
eight calls return one byte and leave ACC = 0, BITCNT = 0. (The spec marks R60 as its own inference.) -/
def Obligations.PkStepsPackGroups : Prop :=
  (∀ (P : List Byte) (s : State), s.bitcnt = 0#3 →
    (pkSteps P s).1 = packGroups P ∧ (pkSteps P s).1.length = P.length / 8 ∧
    (pkSteps P s).2.bitcnt.toNat = P.length % 8 ∧
    ∃ a, (pkSteps P s).2 = { s with acc := a, bitcnt := BitVec.ofNat 3 (P.length % 8) }) ∧
  (∀ (p0 p1 p2 p3 p4 p5 p6 p7 : Byte) (s : State), s.bitcnt = 0#3 →
    (pkSteps [p0, p1, p2, p3, p4, p5, p6] s).1 = [] ∧
    pkSteps [p0, p1, p2, p3, p4, p5, p6, p7] s =
      ([pack8 p0 p1 p2 p3 p4 p5 p6 p7], { s with acc := 0x00#8, bitcnt := 0#3 }))

/-! ### The encoder -/

/-- R65: the five cases of RlStep, whole next states. -/
def Obligations.RlStepTable : Prop :=
  ∀ (b : Byte) (s : State),
    (s.run = false → b ≠ 0x00#8 → rlStep b s = { s with out := s.out ++ [.byte b] }) ∧
    (s.run = false → b = 0x00#8 →
      rlStep b s = { s with run := true, cnt := 0x01#8, out := s.out ++ [.byte 0x00#8] }) ∧
    (s.run = true → b = 0x00#8 → s.cnt.toNat < 254 → rlStep b s = { s with cnt := s.cnt + 1#8 }) ∧
    (s.run = true → b = 0x00#8 → s.cnt.toNat = 254 →
      rlStep b s = { s with run := false, cnt := 0x00#8, out := s.out ++ [.byte 0xFF#8] }) ∧
    (s.run = true → b ≠ 0x00#8 →
      rlStep b s = { s with run := false, cnt := 0x00#8, out := s.out ++ [.byte s.cnt, .byte b] })

/-- R66: RlFlush pushes the owed count byte of an open run and does nothing otherwise. -/
def Obligations.RlFlushRule : Prop :=
  ∀ s : State,
    (s.run = true → rlFlush s = { s with run := false, cnt := 0x00#8, out := s.out ++ [.byte s.cnt] }) ∧
    (s.run = false → rlFlush s = s)

/-- R67: the encoder's steps from RUN = 0, CNT = 0 and the flush push exactly rle(B); before the flush, all of it but the
owed count byte, whose value is CNT. (The spec marks R67 as its own inference.) -/
def Obligations.EncoderRefinesRle : Prop :=
  ∀ (B : List Byte) (s : State), s.run = false → s.cnt = 0x00#8 →
    rlFlush (rlSteps B s) = { s with out := s.out ++ (rle B).map OutWord.byte } ∧
    ((rlSteps B s).run = false → (rlSteps B s).out = s.out ++ (rle B).map OutWord.byte) ∧
    ((rlSteps B s).run = true →
      (rlSteps B s).out = s.out ++ ((rle B).dropLast).map OutWord.byte ∧
      (rle B).getLast? = some (rlSteps B s).cnt)

/-- The document's values of rle and the further corner cases of R64 (S1, S2, S5, S6). -/
def Obligations.RleWorkedValues : Prop :=
  rle [] = [] ∧ rle [0x00#8] = [0x00#8, 0x01#8] ∧
  rle [0x00#8, 0x00#8, 0x18#8, 0x00#8] = [0x00#8, 0x02#8, 0x18#8, 0x00#8, 0x01#8] ∧
  rle (List.replicate 254 0x00#8) = [0x00#8, 0xFE#8] ∧
  rle (List.replicate 255 0x00#8) = [0x00#8, 0xFF#8] ∧
  rle (List.replicate 256 0x00#8) = [0x00#8, 0xFF#8, 0x00#8, 0x01#8] ∧
  rle (List.replicate 300 0x00#8) = [0x00#8, 0xFF#8, 0x00#8, 0x2D#8] ∧
  rle (List.replicate 510 0x00#8) = [0x00#8, 0xFF#8, 0x00#8, 0xFF#8]

/-- R69: a maximal zero run of length L is encoded as floor(L/255) runs of 255 and one of L mod 255, wherever it stands (an
inference the spec marks as its own); conflict C1's 10 bytes. -/
def Obligations.ZeroRunSplit : Prop :=
  (∀ (A C : List Byte) (L : Nat), 1 ≤ L → tz A = 0 → lz C = 0 →
    rle (A ++ List.replicate L 0x00#8 ++ C) = rle A ++ encodedRuns L ++ rle C) ∧
  rle (List.replicate 1024 0x00#8) =
    [0x00#8, 0xFF#8, 0x00#8, 0xFF#8, 0x00#8, 0xFF#8, 0x00#8, 0xFF#8, 0x00#8, 0x04#8]

/-- R50, R70 items 2 and 3: rle(B) is a well-formed, canonical row of tokens that stands for B. (The spec marks them as its own
inference.) -/
def Obligations.RleIsCanonical : Prop :=
  ∀ B : List Byte, ∃ ts : List Token,
    ts.all Token.wellFormed = true ∧ canonical ts = true ∧ rle B = tokenBytes ts ∧ ts.flatMap Token.expand = B

/-- R70 items 1, 4 and 5: identity on zero-free input, when concatenation commutes with rle, the exact length. (The spec marks
items 4 and 5 as its own inference.) -/
def Obligations.RleLaws : Prop :=
  (∀ B : List Byte, (∀ b ∈ B, b ≠ 0x00#8) → rle B = B) ∧
  (∀ B C : List Byte, rle (B ++ C) = rle B ++ rle C ↔ lz C = 0 ∨ tz B % 255 = 0) ∧
  (∀ B : List Byte, (rle B).length =
    (B.filter (fun b => b != 0x00#8)).length + 2 * ((zeroRuns B).map (fun L => (L + 254) / 255)).sum)

/-- R71: the size bounds of rle; the all-zero input's exact length; the upper bound is reached at every length, and by every
input that alternates 0x00 and a non-zero byte starting with 0x00. (The spec marks R71 as its own inference.) -/
def Obligations.RleSizeBounds : Prop :=
  (∀ n, (rle (List.replicate n 0x00#8)).length = 2 * ((n + 254) / 255)) ∧
  (∀ B : List Byte, 2 * (B.length / 255) + min (B.length % 255) 2 ≤ (rle B).length ∧
    (rle B).length ≤ B.length + (B.length + 1) / 2) ∧
  (∀ n, ∃ B : List Byte, B.length = n ∧ (rle B).length = n + (n + 1) / 2) ∧
  (∀ B : List Byte, (∀ i, i < B.length → (B[i]? = some 0x00#8 ↔ i % 2 = 0)) →
    (rle B).length = B.length + (B.length + 1) / 2)

/-- R72: the reference decoder's equations and its two errors; it expands the tokens of every well-formed stream. -/
def Obligations.DecoderRule : Prop :=
  (∀ ts : List Token, ts.all Token.wellFormed = true → dec (tokenBytes ts) = .ok (ts.flatMap Token.expand)) ∧
  (∀ ts : List Token, ts.all Token.wellFormed = true → dec (tokenBytes ts ++ [0x00#8]) = .error .truncatedRun) ∧
  (∀ (ts : List Token) (T : List Byte), ts.all Token.wellFormed = true →
    dec (tokenBytes ts ++ 0x00#8 :: 0x00#8 :: T) = .error .zeroCount)

/-- R73: decoding an encoding gives the sequence back; re-encoding gives the stream back only for canonical streams; a
consumer of a MODE 0b00 frame recovers pack(P). (The last two clauses are inferences of the spec.) -/
def Obligations.RoundTrip : Prop :=
  (∀ B : List Byte, dec (rle B) = .ok B) ∧
  (∀ S D : List Byte, dec S = .ok D →
    (rle D = S ↔ ∃ ts : List Token, ts.all Token.wellFormed = true ∧ canonical ts = true ∧ S = tokenBytes ts)) ∧
  (∀ P Y : List Byte, codec 0b00#2 P = .ok Y → ∃ B, pack P = .ok B ∧ dec Y = .ok B)

/-! ### The commands -/

/-- R75 to R79: DATA outside FAULT, the whole next state, by MODE. -/
def Obligations.DataExecutes : Prop :=
  ∀ (d : Byte) (s : State), s.phase ≠ .fault →
    (s.mode = 0b11#2 → exec (.data d) s = .next { s with phase := .busy, out := s.out ++ [.byte d] }) ∧
    (s.mode = 0b10#2 → exec (.data d) s =
      if s.bitcnt = 7#3 then
        .next { s with phase := .busy, acc := 0x00#8, bitcnt := 0#3, out := s.out ++ [.byte (sh s.acc (thr d))] }
      else .next { s with phase := .busy, acc := sh s.acc (thr d), bitcnt := s.bitcnt + 1#3 }) ∧
    (s.mode = 0b01#2 → exec (.data d) s = .next (rlStep d { s with phase := .busy })) ∧
    (s.mode = 0b00#2 → exec (.data d) s =
      if s.bitcnt = 7#3 then
        .next (rlStep (sh s.acc (thr d)) { s with phase := .busy, acc := 0x00#8, bitcnt := 0#3 })
      else .next { s with phase := .busy, acc := sh s.acc (thr d), bitcnt := s.bitcnt + 1#3 })

/-- R80: END outside FAULT: the length fault, the owed count byte, EOF; after a successful END every data register is 0. -/
def Obligations.EndExecutes : Prop :=
  ∀ s : State, s.phase ≠ .fault →
    (s.mode.getLsbD 0 = false → s.bitcnt ≠ 0#3 → exec .endFrame s = .next (s.raise .invalidInputLength)) ∧
    (s.mode.getLsbD 0 = true ∨ s.bitcnt = 0#3 →
      (s.mode.getLsbD 1 = false → s.run = true → exec .endFrame s =
        .next { s with phase := .idle, run := false, cnt := 0x00#8, out := s.out ++ [.byte s.cnt, .eof] }) ∧
      (s.mode.getLsbD 1 = true ∨ s.run = false → exec .endFrame s =
        .next { s with phase := .idle, out := s.out ++ [.eof] }) ∧
      (s.Inv → ∃ t, exec .endFrame s = .next t ∧ t.phase = .idle ∧ t.acc = 0x00#8 ∧ t.bitcnt = 0#3 ∧
        t.run = false ∧ t.cnt = 0x00#8))

/-- R81: CFG in IDLE writes MODE and nothing else, in BUSY it raises ConfigWhileBusy, whatever m is; R83: in FAULT it is
discarded. -/
def Obligations.CfgExecutes : Prop :=
  ∀ (m : Mode) (s : State),
    (s.phase = .idle → exec (.cfg m) s = .next { s with mode := m }) ∧
    (s.phase = .busy → exec (.cfg m) s = .next (s.raise .configWhileBusy)) ∧
    (s.phase = .fault → exec (.cfg m) s = .next s)

/-- R82: CLR in every phase, the whole next state; in IDLE it changes nothing at all. -/
def Obligations.ClrExecutes : Prop :=
  ∀ s : State,
    (s.phase = .busy → exec .clr s =
      .next { s with phase := .idle, cause := .noFault, acc := 0x00#8, bitcnt := 0#3, run := false, cnt := 0x00#8,
                     out := s.out ++ [.abort .cancelled] }) ∧
    (s.phase ≠ .busy → exec .clr s =
      .next { s with phase := .idle, cause := .noFault, acc := 0x00#8, bitcnt := 0#3, run := false, cnt := 0x00#8 }) ∧
    (s.phase = .idle → s.Inv → exec .clr s = .next s)

/-- R83: while PHASE = FAULT every word but 0x300 is consumed and discarded; CMDIDX still advances. -/
def Obligations.DiscardInFault : Prop :=
  ∀ (s : State) (w : CmdWord) (rest : List HostInput), s.phase = .fault → s.inp = .word w :: rest → w ≠ 0x300#10 →
    step s = .next { s with inp := rest, cmdidx := s.cmdidx + 1 }

/-- R100: 0x300 leaves FAULT: PHASE IDLE, CAUSE 0x00, data registers 0, MODE kept, nothing pushed; no other word leaves it or
changes CAUSE; reset leaves it too, and sets MODE to 0b00. -/
def Obligations.OnlyClrLeavesFault : Prop :=
  ∀ (s t : State) (w : CmdWord) (rest : List HostInput), s.phase = .fault → s.inp = .word w :: rest →
    step s = .next t →
    (t.phase ≠ .fault ↔ w = 0x300#10) ∧
    (w = 0x300#10 → t = { s with phase := .idle, cause := .noFault, acc := 0x00#8, bitcnt := 0#3, run := false,
                                 cnt := 0x00#8, inp := rest, cmdidx := s.cmdidx + 1 }) ∧
    (w ≠ 0x300#10 → t.cause = s.cause ∧ t.faults = s.faults) ∧
    (∀ (P : Config.Params) (i : PortIn) (p : PortState), i.rst = true →
      ∃ q, clockEdge P i p = .next q ∧ q.core.phase = .idle ∧ q.core.mode = 0b00#2)

/-- R99: whenever an accepted word takes the block into FAULT, the step is fault entry and nothing else: PHASE, CAUSE and
one ABORT word; MODE, ACC, BITCNT, RUN, CNT and every earlier output word as before the faulting command; no later command
but CLR has an effect. The first clause gives the fault record's new entry as well: that the model keeps a record, its form and
its numbering are the model's choice (log 7), no part of R99. -/
def Obligations.FaultEntryIsPrecise : Prop :=
  (∀ (s : State) (e : Exc), s.raise e =
    { s with phase := .fault, cause := .exc e, out := s.out ++ [.abort (.exc e)],
             faults := s.faults ++ [⟨s.cmdidx, e⟩] }) ∧
  (∀ (w : CmdWord) (s t : State), s.phase ≠ .fault → accept w s = .next t → t.phase = .fault →
    ∃ e, t.cause = .exc e ∧ pushed s t = [.abort (.exc e)] ∧ t.out = s.out ++ [.abort (.exc e)] ∧
      t.mode = s.mode ∧ t.acc = s.acc ∧ t.bitcnt = s.bitcnt ∧ t.run = s.run ∧ t.cnt = s.cnt ∧ t.inp = s.inp ∧
      ∀ v, v ≠ 0x300#10 → accept v t = .next { t with cmdidx := t.cmdidx + 1 })

/-- R91 to R94 and R98: exactly which words raise which exception, and in which order the tests are made: an illegal word
reports IllegalCommand whatever BITCNT and PHASE are; nothing else faults, and the step is then fault entry alone; in FAULT
nothing faults. -/
def Obligations.WhichWordsFault : Prop :=
  (Exc.invalidInputLength.code = 0x01#8 ∧ Exc.illegalCommand.code = 0x02#8 ∧ Exc.configWhileBusy.code = 0x03#8 ∧
    AbortReason.cancelled.code = 0x04#8 ∧ Cause.noFault.code = 0x00#8 ∧
    ∀ r : AbortReason, (OutWord.abort r).bits = 0b10#2 ++ r.code) ∧
  (∀ (w : CmdWord) (s t : State), s.phase ≠ .fault → accept w s = .next t →
    (t.cause = .exc .illegalCommand ∧ t.phase = .fault ↔ w.legal = false) ∧
    (t.cause = .exc .configWhileBusy ∧ t.phase = .fault ↔
      (∃ m, decode w = .ok (.cfg m)) ∧ s.phase = .busy) ∧
    (t.cause = .exc .invalidInputLength ∧ t.phase = .fault ↔
      w = 0x100#10 ∧ s.mode.getLsbD 0 = false ∧ s.bitcnt ≠ 0#3) ∧
    (t.phase = .fault → ∃ e, t = s.countCommand.raise e)) ∧
  (∀ (w : CmdWord) (s t : State), s.phase = .fault → accept w s = .next t →
    t.faults = s.faults ∧ (w.legal = false → t = s.countCommand))

/-- R84: the whole phase transition table, next PHASE and the words pushed besides BYTE words. -/
def Obligations.PhaseTable : Prop :=
  ∀ (w : CmdWord) (s t : State), s.Inv → accept w s = .next t →
    let sideband := (pushed s t).filter (fun o => match o with | .byte _ => false | _ => true)
    match s.phase, decode w with
    | .fault, .ok .clr => t.phase = .idle ∧ sideband = []
    | .fault, _ => t.phase = .fault ∧ sideband = []
    | _, .error _ => t.phase = .fault ∧ sideband = [.abort (.exc .illegalCommand)]
    | _, .ok (.data _) => t.phase = .busy ∧ sideband = []
    | .idle, .ok .endFrame => t.phase = .idle ∧ sideband = [.eof]
    | .busy, .ok .endFrame =>
      if s.mode.getLsbD 0 = false ∧ s.bitcnt ≠ 0#3 then
        t.phase = .fault ∧ sideband = [.abort (.exc .invalidInputLength)]
      else t.phase = .idle ∧ sideband = [.eof]
    | .idle, .ok (.cfg _) => t.phase = .idle ∧ sideband = []
    | .busy, .ok (.cfg _) => t.phase = .fault ∧ sideband = [.abort (.exc .configWhileBusy)]
    | .idle, .ok .clr => t.phase = .idle ∧ sideband = []
    | .busy, .ok .clr => t.phase = .idle ∧ sideband = [.abort .cancelled]

/-- R88: no step pushes more than two words; how many each command pushes, by MODE and PHASE. (The spec marks R88 as its own
inference.) -/
def Obligations.AtMostTwoWords : Prop :=
  ∀ (w : CmdWord) (s t : State), accept w s = .next t →
    t.out = s.out ++ pushed s t ∧ (pushed s t).length ≤ 2 ∧
    (s.phase = .fault → pushed s t = []) ∧
    (s.phase ≠ .fault →
      (∀ d, decode w = .ok (.data d) →
        (∃ bs : List Byte, pushed s t = bs.map OutWord.byte) ∧
        ((pushed s t).length = 2 → s.mode.getLsbD 1 = false ∧ s.run = true) ∧
        (s.mode = 0b11#2 → (pushed s t).length = 1)) ∧
      (decode w = .ok .endFrame → t.phase ≠ .fault →
        pushed s t = [.eof] ∨ s.run = true ∧ pushed s t = [.byte s.cnt, .eof]) ∧
      (t.phase = .fault → ∃ e, pushed s t = [.abort (.exc e)]) ∧
      (∀ m, decode w = .ok (.cfg m) → s.phase = .idle → pushed s t = []) ∧
      (decode w = .ok .clr → pushed s t = if s.phase = .busy then [.abort .cancelled] else []))

/-- R74: the seven lines of the dispatch, first match first, for every state and every word; CMDIDX advances by 1 in every
case. -/
def Obligations.DispatchLines : Prop :=
  ∀ (s : State) (w : CmdWord),
    let c : State := { s with cmdidx := s.cmdidx + 1 }
    let op := w.extractLsb' 8 2
    let d := w.extractLsb' 0 8
    (∃ t, accept w s = .next t ∧ t.cmdidx = s.cmdidx + 1 ∧ t.inp = s.inp) ∧
    accept w s =
      if s.phase = .fault then (if w = 0x300#10 then execClr c else .next c)
      else if (op = 0b01#2 ∧ d ≠ 0x00#8) ∨ (op = 0b10#2 ∧ d.extractLsb' 2 6 ≠ 0#6) ∨ (op = 0b11#2 ∧ d ≠ 0x00#8) then
        .next (c.raise .illegalCommand)
      else if op = 0b00#2 then execData d c
      else if op = 0b01#2 then execEnd c
      else if op = 0b10#2 then execCfg (d.extractLsb' 0 2) c
      else execClr c

/-- A step runs the decoded command: with a word at the head of IN that decodes to i, step is exec of i with the word
consumed and CMDIDX advanced; withFetchWord puts a command's word there. (IN in State and withFetchWord as the host's offer are
the model's choice, log 3; so is the 16-bit container of a 10-bit word, log 4.) -/
def Obligations.StepRunsDecoded : Prop :=
  (∀ (s : State) (w : CmdWord) (rest : List HostInput) (i : Instr), s.inp = .word w :: rest → decode w = .ok i →
    step s = exec i { s with inp := rest, cmdidx := s.cmdidx + 1 }) ∧
  (∀ (s : State) (i : Instr),
    step (s.withFetchWord 16 (encode i).toNat) = exec i { s with cmdidx := s.cmdidx + 1 })

/-- R10, R15, R75: what DATA leaves unchanged, in every MODE and PHASE: MODE, CAUSE, CMDIDX, IN and the fault record; ACC
and BITCNT when the packer is bypassed; RUN and CNT when the encoder is bypassed or no packed byte is completed; OUT only
grows, by BYTE words. In FAULT nothing changes. -/
def Obligations.DataFrame : Prop :=
  ∀ (d : Byte) (s t : State), exec (.data d) s = .next t →
    t.mode = s.mode ∧ t.cause = s.cause ∧ t.cmdidx = s.cmdidx ∧ t.faults = s.faults ∧ t.inp = s.inp ∧
    (∃ bs : List Byte, t.out = s.out ++ bs.map OutWord.byte) ∧
    (s.mode.getLsbD 0 = true → t.acc = s.acc ∧ t.bitcnt = s.bitcnt) ∧
    (s.mode.getLsbD 1 = true → t.run = s.run ∧ t.cnt = s.cnt) ∧
    (s.mode.getLsbD 0 = false → s.bitcnt ≠ 7#3 → t.run = s.run ∧ t.cnt = s.cnt ∧ t.out = s.out) ∧
    (s.phase = .fault → t = s)

/-- R10, R15, R80 to R83: what END, CFG and CLR leave unchanged. END keeps MODE, ACC and BITCNT always; CFG keeps every data
register always and writes MODE only in IDLE; CLR keeps MODE always; all keep CMDIDX and IN, and each only adds to OUT and to
the fault record. -/
def Obligations.SystemFrame : Prop :=
  (∀ (i : Instr) (s t : State), exec i s = .next t →
    t.cmdidx = s.cmdidx ∧ t.inp = s.inp ∧ s.out <+: t.out ∧ s.faults <+: t.faults) ∧
  (∀ s t : State, exec .endFrame s = .next t →
    t.mode = s.mode ∧ t.acc = s.acc ∧ t.bitcnt = s.bitcnt ∧
    (s.mode.getLsbD 1 = true ∨ s.run = false → t.run = s.run ∧ t.cnt = s.cnt)) ∧
  (∀ (m : Mode) (s t : State), exec (.cfg m) s = .next t →
    t.acc = s.acc ∧ t.bitcnt = s.bitcnt ∧ t.run = s.run ∧ t.cnt = s.cnt ∧
    (s.phase ≠ .idle → t.mode = s.mode) ∧
    (s.phase = .idle → t.phase = s.phase ∧ t.cause = s.cause ∧ t.out = s.out ∧ t.faults = s.faults)) ∧
  (∀ s t : State, exec .clr s = .next t →
    t.mode = s.mode ∧ t.faults = s.faults ∧ (s.phase ≠ .busy → t.out = s.out))

/-- R15 and R24 item 7 (which the spec marks as its own inference): no command word but a CFG accepted in IDLE changes MODE. -/
def Obligations.OnlyCfgChangesMode : Prop :=
  ∀ (s t : State) (w : CmdWord) (rest : List HostInput), s.inp = .word w :: rest → step s = .next t →
    t.mode ≠ s.mode → s.phase = .idle ∧ ∃ m, decode w = .ok (.cfg m) ∧ t.mode = m

/-- R102: the fault record (its form is the model's choice, log 7) is never shortened, so a run that ends with an empty record
was never in FAULT. -/
def Obligations.NoFaultMeansNeverInFault : Prop :=
  ∀ (k : Nat) (s t : State), s.Inv → s.HistInv → Sys2Proof.core.run k s = .next t → t.neverFaulted →
    ∀ j u, j ≤ k → Sys2Proof.core.run j s = .next u → u.phase ≠ .fault ∧ u.neverFaulted

/-- R108: a block that receives no commands keeps its state, however many steps pass. (That a step without a command is a step
is the model's choice, log 1.) -/
def Obligations.IdleKeepsState : Prop :=
  ∀ (k : Nat) (s : State), s.inp = [] → Sys2Proof.core.run k s = .next s

/-! ### The machine refines the functions -/

/-- R36, R60, R67: what an open frame has pushed after the DATA commands alone: of the bytes that reached the second stage,
all that their encoding gives but an owed count byte, whose value is CNT; the threshold bits of the rest sit in ACC. (The spec
marks these rules as its own inference.) -/
def Obligations.OpenFrameOutput : Prop :=
  ∀ (s : State) (D : List Byte) (rest : List HostInput), s.Inv → s.phase = .idle → s.inp = dataInputs D ++ rest →
    ∃ t, Sys2Proof.core.run D.length s = .next t ∧ t.inp = rest ∧ t.cmdidx = s.cmdidx + D.length ∧
      t.mode = s.mode ∧ t.phase = (if D = [] then .idle else .busy) ∧ t.cause = .noFault ∧ t.faults = s.faults ∧
      (bypPack s.mode = false → t.bitcnt.toNat = D.length % 8 ∧ t.acc = shiftIn 0x00#8 (D.drop (8 * (D.length / 8)))) ∧
      (let B := if bypPack s.mode then D else packGroups D
       if bypRle s.mode then t.out = s.out ++ B.map OutWord.byte
       else if t.run then t.out = s.out ++ ((rle B).dropLast).map OutWord.byte ∧ (rle B).getLast? = some t.cnt
       else t.out = s.out ++ (rle B).map OutWord.byte)

/-- R89 (a): from IDLE in MODE m, the frame DATA d0, ..., END pushes BYTE words for F_m(D), EOF, nothing else, and the
registers end as they started. (The spec marks R89 as its own inference.) -/
def Obligations.FrameRefinesCodec : Prop :=
  ∀ (s : State) (D Y : List Byte) (rest : List HostInput), s.Inv → s.phase = .idle → s.inp = frameInputs D ++ rest →
    codec s.mode D = .ok Y →
    Sys2Proof.core.run (D.length + 1) s =
      .next { s with out := s.out ++ Y.map OutWord.byte ++ [.eof], cmdidx := s.cmdidx + D.length + 1, inp := rest }

/-- R89 (b): when F_m(D) is InvalidInputLength, exactly for the packing modes and n mod 8 != 0, the frame ends in FAULT with
ABORT 0x01, BITCNT = n mod 8, ACC the bits of the last n mod 8 pixels, and the BYTE words that R89 gives. (The spec marks R89
as its own inference.) -/
def Obligations.BadFrameAborts : Prop :=
  (∀ (m : Mode) (D : List Byte), codec m D = .error .invalidInputLength ↔
    (m = 0b00#2 ∨ m = 0b10#2) ∧ D.length % 8 ≠ 0) ∧
  ∀ (s : State) (D : List Byte) (rest : List HostInput), s.Inv → s.phase = .idle → s.inp = frameInputs D ++ rest →
    codec s.mode D = .error .invalidInputLength →
    ∃ t, Sys2Proof.core.run (D.length + 1) s = .next t ∧ t.phase = .fault ∧
      t.cause = .exc .invalidInputLength ∧ t.mode = s.mode ∧ t.bitcnt.toNat = D.length % 8 ∧
      t.acc = shiftIn 0x00#8 (D.drop (8 * (D.length / 8))) ∧ t.inp = rest ∧
      (s.mode = 0b10#2 → t.out = s.out ++ (packGroups D).map OutWord.byte ++ [.abort (.exc .invalidInputLength)]) ∧
      (s.mode = 0b00#2 →
        (t.run = true ↔ tz (packGroups D) % 255 ≠ 0) ∧
        t.out = s.out ++ (if t.run then (rle (packGroups D)).dropLast else rle (packGroups D)).map OutWord.byte ++
          [.abort (.exc .invalidInputLength)])

/-- R90: what a frame pushes depends only on MODE and on the words sent since IDLE, not on earlier frames or faults: two
states in IDLE with the same MODE and the same words to come push the same words and reach the same registers. (The spec marks
R90 as its own inference.) -/
def Obligations.FramesAreIndependent : Prop :=
  ∀ (s₁ s₂ : State) (ws : List CmdWord), s₁.Inv → s₂.Inv → s₁.phase = .idle → s₂.phase = .idle → s₁.mode = s₂.mode →
    (∃ vs, (feedAll s₁ ws).out = s₁.out ++ vs ∧ (feedAll s₂ ws).out = s₂.out ++ vs) ∧
    (feedAll s₁ ws).status = (feedAll s₂ ws).status

/-- R28, R89: the sink keeps the frame's bytes, F_m(D), exactly when there are such bytes; a frame closed by ABORT adds
nothing to what it keeps. -/
def Obligations.SinkKeepsCodecOutput : Prop :=
  ∀ (s t : State) (D : List Byte) (rest : List HostInput), s.Inv → s.HistInv → s.phase = .idle →
    s.inp = frameInputs D ++ rest → Sys2Proof.core.run (D.length + 1) s = .next t →
    keptStreams t.out = keptStreams s.out ++ (match codec s.mode D with | .ok Y => [Y] | .error _ => [])

/-- R102, R115: a consumer decodes a valid frame of MODE 0b00 or 0b01 to the bytes that reached the encoder, and is refused
for MODE 0b10 and 0b11. -/
def Obligations.ConsumerRecovers : Prop :=
  ∀ (m : Mode) (D Y : List Byte), codec m D = .ok Y →
    (m = 0b00#2 ∨ m = 0b01#2 → ∃ B, firstStage m D = .ok B ∧ consumerDecode m Y = .ok B) ∧
    (m = 0b10#2 ∨ m = 0b11#2 → consumerDecode m Y = .error .notRleFormat)

/-- Conflict C1 resolved (90_conflicts.md), R64: the format's all-background image encodes to ten bytes, not eight. -/
def Obligations.AllBackgroundImage : Prop :=
  ∀ P : Config.Params, P.imgW = 128 → P.imgH = 64 →
    codec 0b00#2 (List.replicate P.pixels 0x00#8) =
      .ok [0x00#8, 0xFF#8, 0x00#8, 0xFF#8, 0x00#8, 0xFF#8, 0x00#8, 0xFF#8, 0x00#8, 0x04#8]

/-- R118: a frame of n DATA commands takes n + 1 steps, which consume its n + 1 words and nothing after them, and pushes at most
as many words as the rule says, by MODE (the bounds are an inference the spec marks as its own). -/
def Obligations.FrameWordBounds : Prop :=
  ∀ (s : State) (D : List Byte) (rest : List HostInput), s.Inv → s.phase = .idle → s.inp = frameInputs D ++ rest →
    ∃ t, Sys2Proof.core.run (D.length + 1) s = .next t ∧ t.inp = rest ∧ t.cmdidx = s.cmdidx + D.length + 1 ∧
      (s.mode = 0b01#2 → (pushed s t).length ≤ D.length + (D.length + 1) / 2 + 1) ∧
      (s.mode = 0b11#2 → (pushed s t).length = D.length + 1) ∧
      (s.mode = 0b10#2 → D.length % 8 = 0 → (pushed s t).length = D.length / 8 + 1) ∧
      (s.mode = 0b00#2 → D.length % 8 = 0 → (pushed s t).length ≤ D.length / 8 + (D.length + 15) / 16 + 1)

/-! ### Reset event, ports, assembler -/

/-- R109: reset at the ports sets every register to zero, empties OQ, pushes nothing, and a command offered at the same edge
is not accepted; at transaction level a reset in the middle of a run is refused, and one before the first command leaves the
state after reset. R110: the block is ready after reset. (When a run has begun is the model's reading, log 2; that in_ready is 1
from the reset edge on is the model's edge timing, log 10.) -/
def Obligations.ResetEvent : Prop :=
  (∀ (P : Config.Params) (i : PortIn) (p : PortState), i.rst = true →
    ∃ q, clockEdge P i p = .next q ∧ q.core.mode = 0b00#2 ∧ q.core.phase = .idle ∧ q.core.cause = .noFault ∧
      q.core.acc = 0x00#8 ∧ q.core.bitcnt = 0#3 ∧ q.core.run = false ∧ q.core.cnt = 0x00#8 ∧ q.core.out = [] ∧
      q.core.cmdidx = 0 ∧ q.oq = [] ∧ (P.valid = true → q.inReady P = true)) ∧
  (∀ (s : State) (rest : List HostInput), s.inp = .rst :: rest →
    (s.cmdidx ≠ 0 → step s = .refused .midRunReset) ∧
    (s.cmdidx = 0 → step s = .next { State.reset with inp := rest }))

/-- R35 (d), R41: at every clock edge, whatever the host and the sink do, OQ holds exactly the words pushed and not yet taken
since the last reset, and never more than its depth. At an edge without reset the sink takes the oldest word of OQ if it is
ready, and nothing else, and every word taken or queued stays in its place: none is lost, delivered twice or reordered. A reset
empties OQ (R109: its words are lost) and the list of words taken with it, which is the model's choice (log 11). (The handshake
is from general knowledge and its edge timing the model's, log 10.) -/
def Obligations.QueueLosesNothing : Prop :=
  ∀ (P : Config.Params) (i : PortIn) (p q : PortState), P.valid = true → p.Inv P → clockEdge P i p = .next q →
    q.Inv P ∧
    (i.rst = false →
      q.taken = p.taken ++ (if i.outReady then p.oq.take 1 else []) ∧ p.taken <+: q.taken ∧
      p.taken ++ p.oq <+: q.taken ++ q.oq) ∧
    (i.rst = true → q.oq = [] ∧ q.taken = [])

/-- R41, R102: an edge never faults or is refused; a word is accepted exactly when it is offered and in_ready is 1, and at every
other edge without reset the block's state stays as it is; a sink that takes nothing leaves a full block stuck: no register, no
word changes. R19, R41, R97: between steps the status port shows SW; the level output fault is 1 exactly while PHASE = FAULT;
only fault entry sets it, and exactly CLR and reset clear it. (The edge timing is the model's, log 10; that a step lasts while
`wait` is not 0, and what the status port shows then, log 12.) -/
def Obligations.PortsAcceptOrWait : Prop :=
  (∀ (P : Config.Params) (p : PortState),
    ((p.outputs P).inReady = true ↔ p.wait = 0 ∧ p.oq.length + 2 ≤ P.oqDepth) ∧ (p.outputs P).outWord = p.oq.head? ∧
    ((p.outputs P).fault = true ↔ p.core.phase = .fault) ∧ (p.wait = 0 → (p.outputs P).status = p.core.status)) ∧
  ∀ (P : Config.Params) (i : PortIn) (p : PortState), P.valid = true →
    (∃ q, clockEdge P i p = .next q) ∧
    (∀ q : PortState, i.rst = false → clockEdge P i p = .next q →
      (∀ w, i.inWord = some w → (p.outputs P).inReady = true →
        accept w p.core = .next q.core ∧ q.wait = P.cyclesPerCmd - 1) ∧
      (i.inWord = none ∨ (p.outputs P).inReady = false → q.core = p.core ∧ q.wait = p.wait - 1)) ∧
    (i.rst = false → i.outReady = false → P.oqDepth < p.oq.length + 2 →
      clockEdge P i p = .next { p with wait := p.wait - 1 }) ∧
    (∀ q : PortState, clockEdge P i p = .next q →
      ((p.outputs P).fault = false → ((q.outputs P).fault = true ↔
        i.rst = false ∧ (p.outputs P).inReady = true ∧
          ∃ w e, i.inWord = some w ∧ accept w p.core = .next (p.core.countCommand.raise e))) ∧
      ((p.outputs P).fault = true → ((q.outputs P).fault = false ↔
        i.rst = true ∨ (p.outputs P).inReady = true ∧ i.inWord = some 0x300#10)))

/-- R118: if the sink takes every word offered, the block becomes ready again: after as many edges as words are queued and
cycles are owed, the sink has taken every queued word and in_ready is 1. (The edge timing is the model's, log 10.) -/
def Obligations.FairSinkMakesReady : Prop :=
  ∀ (P : Config.Params) (p : PortState), P.valid = true →
    ∃ q, runEdges P (List.replicate (p.oq.length + p.wait) { rst := false, inWord := none, outReady := true }) p = .next q ∧
      q.inReady P = true ∧ q.core = p.core ∧ q.taken = p.taken ++ p.oq

/-- R54: the pseudo-instructions' expansions; PIX8 b makes the packer produce exactly the byte b (which the spec marks as its
own inference). -/
def Obligations.PseudoInstructions : Prop :=
  (∀ k n, expandLine (.rep k n) = List.replicate k (encode (.data (BitVec.ofNat 8 n)))) ∧
  (∀ k, expandLine (.zero k) = expandLine (.rep k 0)) ∧
  (∀ b : Byte, expandLine (.pix8 b.toNat) =
    [7, 6, 5, 4, 3, 2, 1, 0].map (fun i => encode (.data (if b.getLsbD i then 0xFF#8 else 0x00#8)))) ∧
  (∀ b : Byte, pack (pix8 b) = .ok [b])
end

