-- ==== Sys2Proof/Laws/Decode.lean ====
section
/-! SUPPORT. The fields of an encoded command, one lemma per encoding, and what the container carries. -/
namespace Sys2Proof

@[simp] theorem Instr.wellFormed_true (i : Instr) : i.wellFormed = true := by
  cases i with
  | data d => simp only [Instr.wellFormed, decide_eq_true_eq]; omega
  | cfg m => simp only [Instr.wellFormed, decide_eq_true_eq]; omega
  | endFrame => rfl
  | clr => rfl

theorem toNat_op_append (o : BitVec 2) (d : Byte) : (o ++ d : CmdWord).toNat = o.toNat * 256 + d.toNat := by
  rw [BitVec.toNat_append, ← Nat.shiftLeft_add_eq_or_of_lt d.isLt, Nat.shiftLeft_eq]

theorem op_append (o : BitVec 2) (d : Byte) : CmdWord.op (o ++ d) = o := by
  apply BitVec.eq_of_toNat_eq
  rw [CmdWord.op, BitVec.extractLsb'_toNat, toNat_op_append, Nat.shiftRight_eq_div_pow]
  omega

theorem data_append (o : BitVec 2) (d : Byte) : CmdWord.data (o ++ d) = d := by
  apply BitVec.eq_of_toNat_eq
  rw [CmdWord.data, BitVec.extractLsb'_toNat, toNat_op_append, Nat.shiftRight_eq_div_pow]
  omega

/-- A word is its two fields (R42). -/
theorem op_data_eq (w : CmdWord) : CmdWord.op w ++ CmdWord.data w = w := by
  apply BitVec.eq_of_toNat_eq
  rw [toNat_op_append, CmdWord.op, CmdWord.data, BitVec.extractLsb'_toNat, BitVec.extractLsb'_toNat,
    Nat.shiftRight_eq_div_pow, Nat.shiftRight_eq_div_pow]
  omega

@[simp] theorem cmdWordOfNat_toNat (w : CmdWord) : cmdWordOfNat w.toNat = some w := by
  simp [cmdWordOfNat, w.isLt]

/-- A word put into the 16-bit container is read back. -/
theorem tableWord_toNat (w : CmdWord) : tableWord 16 w.toNat = some w := by
  have h : w.toNat % 2 ^ 16 = w.toNat := Nat.mod_eq_of_lt (by omega)
  rw [tableWord, h, cmdWordOfNat_toNat]

end Sys2Proof
end

