-- ==== Sys2Proof/Laws/State.lean ====
section
/-! SUPPORT. What each named operation does to each field of State, one lemma per field per update. -/
namespace Sys2Proof.Machine

variable (s : State)

@[simp] theorem outPush_mode (w : OutWord) : (s.outPush w).mode = s.mode := rfl
@[simp] theorem outPush_phase (w : OutWord) : (s.outPush w).phase = s.phase := rfl
@[simp] theorem outPush_cause (w : OutWord) : (s.outPush w).cause = s.cause := rfl
@[simp] theorem outPush_acc (w : OutWord) : (s.outPush w).acc = s.acc := rfl
@[simp] theorem outPush_bitcnt (w : OutWord) : (s.outPush w).bitcnt = s.bitcnt := rfl
@[simp] theorem outPush_run (w : OutWord) : (s.outPush w).run = s.run := rfl
@[simp] theorem outPush_cnt (w : OutWord) : (s.outPush w).cnt = s.cnt := rfl
@[simp] theorem outPush_out (w : OutWord) : (s.outPush w).out = s.out ++ [w] := rfl
@[simp] theorem outPush_cmdidx (w : OutWord) : (s.outPush w).cmdidx = s.cmdidx := rfl
@[simp] theorem outPush_faults (w : OutWord) : (s.outPush w).faults = s.faults := rfl
@[simp] theorem outPush_inp (w : OutWord) : (s.outPush w).inp = s.inp := rfl

@[simp] theorem emit_mode (b : Byte) : (s.emit b).mode = s.mode := rfl
@[simp] theorem emit_phase (b : Byte) : (s.emit b).phase = s.phase := rfl
@[simp] theorem emit_cause (b : Byte) : (s.emit b).cause = s.cause := rfl
@[simp] theorem emit_acc (b : Byte) : (s.emit b).acc = s.acc := rfl
@[simp] theorem emit_bitcnt (b : Byte) : (s.emit b).bitcnt = s.bitcnt := rfl
@[simp] theorem emit_run (b : Byte) : (s.emit b).run = s.run := rfl
@[simp] theorem emit_cnt (b : Byte) : (s.emit b).cnt = s.cnt := rfl
@[simp] theorem emit_out (b : Byte) : (s.emit b).out = s.out ++ [.byte b] := rfl
@[simp] theorem emit_cmdidx (b : Byte) : (s.emit b).cmdidx = s.cmdidx := rfl
@[simp] theorem emit_faults (b : Byte) : (s.emit b).faults = s.faults := rfl
@[simp] theorem emit_inp (b : Byte) : (s.emit b).inp = s.inp := rfl

@[simp] theorem emitEof_mode : s.emitEof.mode = s.mode := rfl
@[simp] theorem emitEof_phase : s.emitEof.phase = s.phase := rfl
@[simp] theorem emitEof_cause : s.emitEof.cause = s.cause := rfl
@[simp] theorem emitEof_acc : s.emitEof.acc = s.acc := rfl
@[simp] theorem emitEof_bitcnt : s.emitEof.bitcnt = s.bitcnt := rfl
@[simp] theorem emitEof_run : s.emitEof.run = s.run := rfl
@[simp] theorem emitEof_cnt : s.emitEof.cnt = s.cnt := rfl
@[simp] theorem emitEof_out : s.emitEof.out = s.out ++ [.eof] := rfl
@[simp] theorem emitEof_cmdidx : s.emitEof.cmdidx = s.cmdidx := rfl
@[simp] theorem emitEof_faults : s.emitEof.faults = s.faults := rfl
@[simp] theorem emitEof_inp : s.emitEof.inp = s.inp := rfl

@[simp] theorem emitAbort_mode (r : AbortReason) : (s.emitAbort r).mode = s.mode := rfl
@[simp] theorem emitAbort_phase (r : AbortReason) : (s.emitAbort r).phase = s.phase := rfl
@[simp] theorem emitAbort_cause (r : AbortReason) : (s.emitAbort r).cause = s.cause := rfl
@[simp] theorem emitAbort_acc (r : AbortReason) : (s.emitAbort r).acc = s.acc := rfl
@[simp] theorem emitAbort_bitcnt (r : AbortReason) : (s.emitAbort r).bitcnt = s.bitcnt := rfl
@[simp] theorem emitAbort_run (r : AbortReason) : (s.emitAbort r).run = s.run := rfl
@[simp] theorem emitAbort_cnt (r : AbortReason) : (s.emitAbort r).cnt = s.cnt := rfl
@[simp] theorem emitAbort_out (r : AbortReason) : (s.emitAbort r).out = s.out ++ [.abort r] := rfl
@[simp] theorem emitAbort_cmdidx (r : AbortReason) : (s.emitAbort r).cmdidx = s.cmdidx := rfl
@[simp] theorem emitAbort_faults (r : AbortReason) : (s.emitAbort r).faults = s.faults := rfl
@[simp] theorem emitAbort_inp (r : AbortReason) : (s.emitAbort r).inp = s.inp := rfl

@[simp] theorem setPhase_mode (p : Phase) : (s.setPhase p).mode = s.mode := rfl
@[simp] theorem setPhase_phase (p : Phase) : (s.setPhase p).phase = p := rfl
@[simp] theorem setPhase_cause (p : Phase) : (s.setPhase p).cause = s.cause := rfl
@[simp] theorem setPhase_acc (p : Phase) : (s.setPhase p).acc = s.acc := rfl
@[simp] theorem setPhase_bitcnt (p : Phase) : (s.setPhase p).bitcnt = s.bitcnt := rfl
@[simp] theorem setPhase_run (p : Phase) : (s.setPhase p).run = s.run := rfl
@[simp] theorem setPhase_cnt (p : Phase) : (s.setPhase p).cnt = s.cnt := rfl
@[simp] theorem setPhase_out (p : Phase) : (s.setPhase p).out = s.out := rfl
@[simp] theorem setPhase_cmdidx (p : Phase) : (s.setPhase p).cmdidx = s.cmdidx := rfl
@[simp] theorem setPhase_faults (p : Phase) : (s.setPhase p).faults = s.faults := rfl
@[simp] theorem setPhase_inp (p : Phase) : (s.setPhase p).inp = s.inp := rfl

@[simp] theorem setMode_mode (m : Mode) : (s.setMode m).mode = m := rfl
@[simp] theorem setMode_phase (m : Mode) : (s.setMode m).phase = s.phase := rfl
@[simp] theorem setMode_cause (m : Mode) : (s.setMode m).cause = s.cause := rfl
@[simp] theorem setMode_acc (m : Mode) : (s.setMode m).acc = s.acc := rfl
@[simp] theorem setMode_bitcnt (m : Mode) : (s.setMode m).bitcnt = s.bitcnt := rfl
@[simp] theorem setMode_run (m : Mode) : (s.setMode m).run = s.run := rfl
@[simp] theorem setMode_cnt (m : Mode) : (s.setMode m).cnt = s.cnt := rfl
@[simp] theorem setMode_out (m : Mode) : (s.setMode m).out = s.out := rfl
@[simp] theorem setMode_cmdidx (m : Mode) : (s.setMode m).cmdidx = s.cmdidx := rfl
@[simp] theorem setMode_faults (m : Mode) : (s.setMode m).faults = s.faults := rfl
@[simp] theorem setMode_inp (m : Mode) : (s.setMode m).inp = s.inp := rfl

@[simp] theorem setPacker_mode (a : Byte) (k : BitVec 3) : (s.setPacker a k).mode = s.mode := rfl
@[simp] theorem setPacker_phase (a : Byte) (k : BitVec 3) : (s.setPacker a k).phase = s.phase := rfl
@[simp] theorem setPacker_cause (a : Byte) (k : BitVec 3) : (s.setPacker a k).cause = s.cause := rfl
@[simp] theorem setPacker_acc (a : Byte) (k : BitVec 3) : (s.setPacker a k).acc = a := rfl
@[simp] theorem setPacker_bitcnt (a : Byte) (k : BitVec 3) : (s.setPacker a k).bitcnt = k := rfl
@[simp] theorem setPacker_run (a : Byte) (k : BitVec 3) : (s.setPacker a k).run = s.run := rfl
@[simp] theorem setPacker_cnt (a : Byte) (k : BitVec 3) : (s.setPacker a k).cnt = s.cnt := rfl
@[simp] theorem setPacker_out (a : Byte) (k : BitVec 3) : (s.setPacker a k).out = s.out := rfl
@[simp] theorem setPacker_cmdidx (a : Byte) (k : BitVec 3) : (s.setPacker a k).cmdidx = s.cmdidx := rfl
@[simp] theorem setPacker_faults (a : Byte) (k : BitVec 3) : (s.setPacker a k).faults = s.faults := rfl
@[simp] theorem setPacker_inp (a : Byte) (k : BitVec 3) : (s.setPacker a k).inp = s.inp := rfl

@[simp] theorem setRle_mode (r : Bool) (c : Byte) : (s.setRle r c).mode = s.mode := rfl
@[simp] theorem setRle_phase (r : Bool) (c : Byte) : (s.setRle r c).phase = s.phase := rfl
@[simp] theorem setRle_cause (r : Bool) (c : Byte) : (s.setRle r c).cause = s.cause := rfl
@[simp] theorem setRle_acc (r : Bool) (c : Byte) : (s.setRle r c).acc = s.acc := rfl
@[simp] theorem setRle_bitcnt (r : Bool) (c : Byte) : (s.setRle r c).bitcnt = s.bitcnt := rfl
@[simp] theorem setRle_run (r : Bool) (c : Byte) : (s.setRle r c).run = r := rfl
@[simp] theorem setRle_cnt (r : Bool) (c : Byte) : (s.setRle r c).cnt = c := rfl
@[simp] theorem setRle_out (r : Bool) (c : Byte) : (s.setRle r c).out = s.out := rfl
@[simp] theorem setRle_cmdidx (r : Bool) (c : Byte) : (s.setRle r c).cmdidx = s.cmdidx := rfl
@[simp] theorem setRle_faults (r : Bool) (c : Byte) : (s.setRle r c).faults = s.faults := rfl
@[simp] theorem setRle_inp (r : Bool) (c : Byte) : (s.setRle r c).inp = s.inp := rfl

@[simp] theorem setCause_mode (c : Cause) : (s.setCause c).mode = s.mode := rfl
@[simp] theorem setCause_phase (c : Cause) : (s.setCause c).phase = s.phase := rfl
@[simp] theorem setCause_cause (c : Cause) : (s.setCause c).cause = c := rfl
@[simp] theorem setCause_acc (c : Cause) : (s.setCause c).acc = s.acc := rfl
@[simp] theorem setCause_bitcnt (c : Cause) : (s.setCause c).bitcnt = s.bitcnt := rfl
@[simp] theorem setCause_run (c : Cause) : (s.setCause c).run = s.run := rfl
@[simp] theorem setCause_cnt (c : Cause) : (s.setCause c).cnt = s.cnt := rfl
@[simp] theorem setCause_out (c : Cause) : (s.setCause c).out = s.out := rfl
@[simp] theorem setCause_cmdidx (c : Cause) : (s.setCause c).cmdidx = s.cmdidx := rfl
@[simp] theorem setCause_faults (c : Cause) : (s.setCause c).faults = s.faults := rfl
@[simp] theorem setCause_inp (c : Cause) : (s.setCause c).inp = s.inp := rfl

@[simp] theorem countCommand_mode : s.countCommand.mode = s.mode := rfl
@[simp] theorem countCommand_phase : s.countCommand.phase = s.phase := rfl
@[simp] theorem countCommand_cause : s.countCommand.cause = s.cause := rfl
@[simp] theorem countCommand_acc : s.countCommand.acc = s.acc := rfl
@[simp] theorem countCommand_bitcnt : s.countCommand.bitcnt = s.bitcnt := rfl
@[simp] theorem countCommand_run : s.countCommand.run = s.run := rfl
@[simp] theorem countCommand_cnt : s.countCommand.cnt = s.cnt := rfl
@[simp] theorem countCommand_out : s.countCommand.out = s.out := rfl
@[simp] theorem countCommand_cmdidx : s.countCommand.cmdidx = s.cmdidx + 1 := rfl
@[simp] theorem countCommand_faults : s.countCommand.faults = s.faults := rfl
@[simp] theorem countCommand_inp : s.countCommand.inp = s.inp := rfl

@[simp] theorem recordFault_mode (e : Exc) : (s.recordFault e).mode = s.mode := rfl
@[simp] theorem recordFault_phase (e : Exc) : (s.recordFault e).phase = s.phase := rfl
@[simp] theorem recordFault_cause (e : Exc) : (s.recordFault e).cause = s.cause := rfl
@[simp] theorem recordFault_acc (e : Exc) : (s.recordFault e).acc = s.acc := rfl
@[simp] theorem recordFault_bitcnt (e : Exc) : (s.recordFault e).bitcnt = s.bitcnt := rfl
@[simp] theorem recordFault_run (e : Exc) : (s.recordFault e).run = s.run := rfl
@[simp] theorem recordFault_cnt (e : Exc) : (s.recordFault e).cnt = s.cnt := rfl
@[simp] theorem recordFault_out (e : Exc) : (s.recordFault e).out = s.out := rfl
@[simp] theorem recordFault_cmdidx (e : Exc) : (s.recordFault e).cmdidx = s.cmdidx := rfl
@[simp] theorem recordFault_faults (e : Exc) : (s.recordFault e).faults = s.faults ++ [⟨s.cmdidx, e⟩] := rfl
@[simp] theorem recordFault_inp (e : Exc) : (s.recordFault e).inp = s.inp := rfl

@[simp] theorem raise_mode (e : Exc) : (s.raise e).mode = s.mode := rfl
@[simp] theorem raise_phase (e : Exc) : (s.raise e).phase = .fault := rfl
@[simp] theorem raise_cause (e : Exc) : (s.raise e).cause = .exc e := rfl
@[simp] theorem raise_acc (e : Exc) : (s.raise e).acc = s.acc := rfl
@[simp] theorem raise_bitcnt (e : Exc) : (s.raise e).bitcnt = s.bitcnt := rfl
@[simp] theorem raise_run (e : Exc) : (s.raise e).run = s.run := rfl
@[simp] theorem raise_cnt (e : Exc) : (s.raise e).cnt = s.cnt := rfl
@[simp] theorem raise_out (e : Exc) : (s.raise e).out = s.out ++ [.abort (.exc e)] := rfl
@[simp] theorem raise_cmdidx (e : Exc) : (s.raise e).cmdidx = s.cmdidx := rfl
@[simp] theorem raise_faults (e : Exc) : (s.raise e).faults = s.faults ++ [⟨s.cmdidx, e⟩] := rfl
@[simp] theorem raise_inp (e : Exc) : (s.raise e).inp = s.inp := rfl

@[simp] theorem clearFrame_mode : s.clearFrame.mode = s.mode := rfl
@[simp] theorem clearFrame_phase : s.clearFrame.phase = .idle := rfl
@[simp] theorem clearFrame_cause : s.clearFrame.cause = .noFault := rfl
@[simp] theorem clearFrame_acc : s.clearFrame.acc = 0x00#8 := rfl
@[simp] theorem clearFrame_bitcnt : s.clearFrame.bitcnt = 0#3 := rfl
@[simp] theorem clearFrame_run : s.clearFrame.run = false := rfl
@[simp] theorem clearFrame_cnt : s.clearFrame.cnt = 0x00#8 := rfl
@[simp] theorem clearFrame_out : s.clearFrame.out = s.out := rfl
@[simp] theorem clearFrame_cmdidx : s.clearFrame.cmdidx = s.cmdidx := rfl
@[simp] theorem clearFrame_faults : s.clearFrame.faults = s.faults := rfl
@[simp] theorem clearFrame_inp : s.clearFrame.inp = s.inp := rfl

@[simp] theorem discard_mode : s.discard.mode = s.mode := rfl
@[simp] theorem discard_phase : s.discard.phase = s.phase := rfl
@[simp] theorem discard_cause : s.discard.cause = s.cause := rfl
@[simp] theorem discard_acc : s.discard.acc = s.acc := rfl
@[simp] theorem discard_bitcnt : s.discard.bitcnt = s.bitcnt := rfl
@[simp] theorem discard_run : s.discard.run = s.run := rfl
@[simp] theorem discard_cnt : s.discard.cnt = s.cnt := rfl
@[simp] theorem discard_out : s.discard.out = s.out := rfl
@[simp] theorem discard_cmdidx : s.discard.cmdidx = s.cmdidx := rfl
@[simp] theorem discard_faults : s.discard.faults = s.faults := rfl
@[simp] theorem discard_inp : s.discard.inp = s.inp := rfl

end Sys2Proof.Machine
end

