-- ==== Sys2Proof/Laws/Ops.lean ====
section
/-! SUPPORT. What the shared operations can do: the packer's and the encoder's steps, the two stages, fault entry. -/
namespace Sys2Proof.Machine

/-! ### The packer's step -/

theorem pkStep_last (d : Byte) (s : State) (h : s.bitcnt = 7#3) :
    pkStep d s = (some (sh s.acc (thr d)), s.setPacker 0x00#8 0#3) := by
  simp [pkStep, h]

theorem pkStep_inner (d : Byte) (s : State) (h : s.bitcnt ≠ 7#3) :
    pkStep d s = (none, s.setPacker (sh s.acc (thr d)) (s.bitcnt + 1#3)) := by
  simp [pkStep, h]

/-- The packer's step writes ACC and BITCNT and nothing else. -/
theorem pkStep_frame (d : Byte) (s : State) : ∃ a k, (pkStep d s).2 = s.setPacker a k := by
  unfold pkStep; split <;> exact ⟨_, _, rfl⟩

/-! ### The encoder's step, cases A to E of rule R65 -/

theorem rlStep_literal (b : Byte) (s : State) (hr : s.run = false) (hb : b ≠ 0x00#8) : rlStep b s = s.emit b := by
  simp [rlStep, hr, hb]

theorem rlStep_opens (s : State) (hr : s.run = false) :
    rlStep 0x00#8 s = (s.emit 0x00#8).setRle true 0x01#8 := by
  simp [rlStep, hr]

theorem rlStep_counts (s : State) (hr : s.run = true) (hc : s.cnt.toNat < 254) :
    rlStep 0x00#8 s = s.setRle true (s.cnt + 0x01#8) := by
  simp [rlStep, hr, hc]

theorem rlStep_saturates (s : State) (hr : s.run = true) (hc : 254 ≤ s.cnt.toNat) :
    rlStep 0x00#8 s = (s.emit 0xFF#8).setRle false 0x00#8 := by
  simp [rlStep, hr, Nat.not_lt.mpr hc]

theorem rlStep_closes (b : Byte) (s : State) (hr : s.run = true) (hb : b ≠ 0x00#8) :
    rlStep b s = ((s.emit s.cnt).emit b).setRle false 0x00#8 := by
  simp [rlStep, hr, hb]

/-- Every answer of the encoder's step is one of the five cases of rule R65. -/
theorem rlStep_cases (b : Byte) (s : State) :
    (s.run = false ∧ b ≠ 0x00#8 ∧ rlStep b s = s.emit b) ∨
    (s.run = false ∧ b = 0x00#8 ∧ rlStep b s = (s.emit 0x00#8).setRle true 0x01#8) ∨
    (s.run = true ∧ b = 0x00#8 ∧ s.cnt.toNat < 254 ∧ rlStep b s = s.setRle true (s.cnt + 0x01#8)) ∨
    (s.run = true ∧ b = 0x00#8 ∧ 254 ≤ s.cnt.toNat ∧ rlStep b s = (s.emit 0xFF#8).setRle false 0x00#8) ∨
    (s.run = true ∧ b ≠ 0x00#8 ∧ rlStep b s = ((s.emit s.cnt).emit b).setRle false 0x00#8) := by
  cases hr : s.run <;> by_cases hb : b = 0x00#8
  · subst hb; exact .inr (.inl ⟨rfl, rfl, rlStep_opens s hr⟩)
  · exact .inl ⟨rfl, hb, rlStep_literal b s hr hb⟩
  · subst hb
    by_cases hc : s.cnt.toNat < 254
    · exact .inr (.inr (.inl ⟨rfl, rfl, hc, rlStep_counts s hr hc⟩))
    · exact .inr (.inr (.inr (.inl ⟨rfl, rfl, Nat.not_lt.mp hc, rlStep_saturates s hr (Nat.not_lt.mp hc)⟩)))
  · exact .inr (.inr (.inr (.inr ⟨rfl, hb, rlStep_closes b s hr hb⟩)))

/-- The encoder's step appends at most two BYTE words and writes RUN and CNT, and nothing else. -/
theorem rlStep_frame (b : Byte) (s : State) :
    ∃ (bs : List Byte) (r : Bool) (c : Byte), bs.length ≤ 2 ∧ rlStep b s = { s with run := r, cnt := c, out := s.out ++ bs.map OutWord.byte } := by
  rcases rlStep_cases b s with ⟨_, _, h⟩ | ⟨_, _, h⟩ | ⟨_, _, _, h⟩ | ⟨_, _, _, h⟩ | ⟨_, _, h⟩ <;> rw [h]
  · exact ⟨[b], s.run, s.cnt, by simp, rfl⟩
  · exact ⟨[0x00#8], true, 0x01#8, by simp, rfl⟩
  · exact ⟨[], true, s.cnt + 0x01#8, by simp, by simp [State.setRle]⟩
  · exact ⟨[0xFF#8], false, 0x00#8, by simp, rfl⟩
  · exact ⟨[s.cnt, b], false, 0x00#8, by simp, by simp [State.setRle, State.emit, State.outPush]⟩

theorem rlFlush_open (s : State) (h : s.run = true) : rlFlush s = (s.emit s.cnt).setRle false 0x00#8 := by
  simp [rlFlush, h]

theorem rlFlush_closed (s : State) (h : s.run = false) : rlFlush s = s := by
  simp [rlFlush, h]

/-! ### The two stages of DATA (rule R75) -/

theorem packStage_pixel (d : Byte) (s : State) (h : bypPack s.mode = false) : packStage d s = pkStep d s := by
  simp [packStage, h]

theorem packStage_byte (d : Byte) (s : State) (h : bypPack s.mode = true) : packStage d s = (some d, s) := by
  simp [packStage, h]

theorem rleStage_encoded (a : Byte) (s : State) (h : bypRle s.mode = false) : rleStage a s = rlStep a s := by
  simp [rleStage, h]

theorem rleStage_raw (a : Byte) (s : State) (h : bypRle s.mode = true) : rleStage a s = s.emit a := by
  simp [rleStage, h]

@[simp] theorem deliver_some (a : Byte) (s : State) : deliver (some a) s = rleStage a s := rfl
@[simp] theorem deliver_none (s : State) : deliver none s = s := rfl

/-- The first stage writes ACC and BITCNT and nothing else. -/
theorem packStage_frame (d : Byte) (s : State) : ∃ a k, (packStage d s).2 = s.setPacker a k := by
  unfold packStage
  split
  · exact ⟨s.acc, s.bitcnt, rfl⟩
  · exact pkStep_frame d s

/-- The second stage appends at most two BYTE words and writes RUN and CNT, and nothing else. -/
theorem deliver_frame (r : Option Byte) (s : State) :
    ∃ (bs : List Byte) (q : Bool) (c : Byte), bs.length ≤ 2 ∧ deliver r s = { s with run := q, cnt := c, out := s.out ++ bs.map OutWord.byte } := by
  cases r with
  | none => exact ⟨[], s.run, s.cnt, by simp, by simp⟩
  | some a =>
    by_cases h : bypRle s.mode = true
    · exact ⟨[a], s.run, s.cnt, by simp, by rw [deliver_some, rleStage_raw a s h]; rfl⟩
    · rw [deliver_some, rleStage_encoded a s (by simpa using h)]; exact rlStep_frame a s

/-- What DATA can change: PHASE to BUSY, the data registers, and up to two BYTE words. -/
theorem dataEffect_frame (d : Byte) (s : State) :
    ∃ (a : Byte) (k : BitVec 3) (q : Bool) (c : Byte) (bs : List Byte), bs.length ≤ 2 ∧ dataEffect d s =
      { s with phase := .busy, acc := a, bitcnt := k, run := q, cnt := c, out := s.out ++ bs.map OutWord.byte } := by
  obtain ⟨a, k, hp⟩ := packStage_frame d (s.setPhase .busy)
  obtain ⟨bs, q, c, hl, hd⟩ := deliver_frame (packStage d (s.setPhase .busy)).1 (packStage d (s.setPhase .busy)).2
  refine ⟨a, k, q, c, bs, hl, ?_⟩
  rw [dataEffect, hd, hp]; rfl

/-- A successful END, by whether an owed count byte is flushed. -/
theorem closeFrame_flushing (s : State) (hm : bypRle s.mode = false) (hr : s.run = true) :
    closeFrame s = { s with phase := .idle, run := false, cnt := 0x00#8, out := s.out ++ [.byte s.cnt, .eof] } := by
  simp [closeFrame, flushStage, hm, rlFlush, hr, State.setPhase, State.emitEof, State.outPush, State.emit, State.setRle]

theorem closeFrame_plain (s : State) (h : bypRle s.mode = true ∨ s.run = false) :
    closeFrame s = { s with phase := .idle, out := s.out ++ [.eof] } := by
  have hf : flushStage s = s := by
    rcases h with h | h
    · simp [flushStage, h]
    · simp [flushStage, rlFlush_closed s h]
  rw [closeFrame, hf]; rfl

/-- A successful END is one of the two. -/
theorem closeFrame_cases (s : State) :
    (bypRle s.mode = false ∧ s.run = true ∧
      closeFrame s = { s with phase := .idle, run := false, cnt := 0x00#8, out := s.out ++ [.byte s.cnt, .eof] }) ∨
    ((bypRle s.mode = true ∨ s.run = false) ∧ closeFrame s = { s with phase := .idle, out := s.out ++ [.eof] }) := by
  by_cases h : bypRle s.mode = true ∨ s.run = false
  · exact .inr ⟨h, closeFrame_plain s h⟩
  · simp only [not_or, Bool.not_eq_true, Bool.not_eq_false] at h
    exact .inl ⟨h.1, h.2, closeFrame_flushing s h.1 h.2⟩

/-! ### Faults -/

theorem raise_eq (s : State) (e : Exc) :
    s.raise e = { s with phase := .fault, cause := .exc e, out := s.out ++ [.abort (.exc e)],
                         faults := s.faults ++ [⟨s.cmdidx, e⟩] } := rfl

theorem clearFrame_eq (s : State) :
    s.clearFrame = { s with phase := .idle, cause := .noFault, acc := 0x00#8, bitcnt := 0#3, run := false,
                            cnt := 0x00#8 } := rfl

theorem discard_eq (s : State) : s.discard = s := rfl

theorem illegalWord_outside_fault (s : State) (h : s.phase ≠ .fault) : s.illegalWord = s.raise .illegalCommand := by
  simp [State.illegalWord, h]

theorem illegalWord_in_fault (s : State) (h : s.phase = .fault) : s.illegalWord = s := by
  simp [State.illegalWord, h, discard_eq]

end Sys2Proof.Machine
end

