-- ==== Sys2Proof/Laws/Exec.lean ====
section
/-! SUPPORT. What each meaning answers, by PHASE, and what a step is: the lemmas later proofs cite instead of unfolding. -/
namespace Sys2Proof.Machine

variable (s : State)

theorem execData_busy (d : Byte) (h : s.phase ≠ .fault) : execData d s = .next (dataEffect d s) := by
  simp [execData, h]

theorem execData_fault (d : Byte) (h : s.phase = .fault) : execData d s = .next s := by
  simp [execData, h, discard_eq]

theorem execEnd_fault (h : s.phase = .fault) : execEnd s = .next s := by
  simp [execEnd, h, discard_eq]

theorem execEnd_bad (h : s.phase ≠ .fault) (hb : lengthBad s = true) :
    execEnd s = .next (s.raise .invalidInputLength) := by
  simp [execEnd, h, hb]

theorem execEnd_closes (h : s.phase ≠ .fault) (hb : lengthBad s = false) : execEnd s = .next (closeFrame s) := by
  simp [execEnd, h, hb]

theorem execCfg_idle (m : Mode) (h : s.phase = .idle) : execCfg m s = .next (s.setMode m) := by
  simp [execCfg, h]

theorem execCfg_busy (m : Mode) (h : s.phase = .busy) : execCfg m s = .next (s.raise .configWhileBusy) := by
  simp [execCfg, h]

theorem execCfg_fault (m : Mode) (h : s.phase = .fault) : execCfg m s = .next s := by
  simp [execCfg, h, discard_eq]

theorem execClr_busy (h : s.phase = .busy) : execClr s = .next (s.emitAbort .cancelled).clearFrame := by
  simp [execClr, h]

theorem execClr_closed (h : s.phase ≠ .busy) : execClr s = .next s.clearFrame := by
  cases hp : s.phase <;> simp_all [execClr]

/-- Every command of the four completes (R102: "every accepted command completes in one step"). -/
theorem exec_completes (i : Instr) : ∃ t, exec i s = .next t := by
  cases i with
  | data d =>
    by_cases h : s.phase = .fault
    · exact ⟨_, execData_fault s d h⟩
    · exact ⟨_, execData_busy s d h⟩
  | endFrame =>
    by_cases h : s.phase = .fault
    · exact ⟨_, execEnd_fault s h⟩
    · cases hb : lengthBad s
      · exact ⟨_, execEnd_closes s h hb⟩
      · exact ⟨_, execEnd_bad s h hb⟩
  | cfg m =>
    cases h : s.phase
    · exact ⟨_, execCfg_idle s m h⟩
    · exact ⟨_, execCfg_busy s m h⟩
    · exact ⟨_, execCfg_fault s m h⟩
  | clr =>
    by_cases h : s.phase = .busy
    · exact ⟨_, execClr_busy s h⟩
    · exact ⟨_, execClr_closed s h⟩

theorem accept_command (w : CmdWord) (i : Instr) (h : decode w = .ok i) : accept w s = exec i s.countCommand := by
  simp [accept, h]

theorem accept_illegal (w : CmdWord) (r : Reject) (h : decode w = .error r) :
    accept w s = .next s.countCommand.illegalWord := by
  simp [accept, h]

/-- Every accepted word completes, in every state. -/
theorem accept_completes (w : CmdWord) : ∃ t, accept w s = .next t := by
  cases hw : decode w with
  | ok i => rw [accept_command s w i hw]; exact exec_completes _ i
  | error r => exact ⟨_, accept_illegal s w r hw⟩

/-- Everything an accepted word can do, by PHASE and by what the word decodes to (R74). `c` is the state with the word
counted. -/
theorem accept_cases (w : CmdWord) (t : State) (h : accept w s = .next t) :
    let c := s.countCommand
    (s.phase = .fault ∧ decode w = .ok .clr ∧ t = c.clearFrame) ∨
    (s.phase = .fault ∧ decode w ≠ .ok .clr ∧ t = c) ∨
    (s.phase ≠ .fault ∧ (∃ r, decode w = .error r) ∧ t = c.raise .illegalCommand) ∨
    (s.phase ≠ .fault ∧ (∃ d, decode w = .ok (.data d) ∧ t = dataEffect d c)) ∨
    (s.phase ≠ .fault ∧ decode w = .ok .endFrame ∧ lengthBad s = true ∧ t = c.raise .invalidInputLength) ∨
    (s.phase ≠ .fault ∧ decode w = .ok .endFrame ∧ lengthBad s = false ∧ t = closeFrame c) ∨
    (s.phase = .idle ∧ (∃ m, decode w = .ok (.cfg m) ∧ t = c.setMode m)) ∨
    (s.phase = .busy ∧ (∃ m, decode w = .ok (.cfg m)) ∧ t = c.raise .configWhileBusy) ∨
    (s.phase = .busy ∧ decode w = .ok .clr ∧ t = (c.emitAbort .cancelled).clearFrame) ∨
    (s.phase = .idle ∧ decode w = .ok .clr ∧ t = c.clearFrame) := by
  have hl : lengthBad s.countCommand = lengthBad s := rfl
  cases hw : decode w with
  | error r =>
    rw [accept_illegal s w r hw] at h
    cases h
    by_cases hp : s.phase = .fault
    · have e := illegalWord_in_fault s.countCommand (by simpa using hp)
      simp [hp, e]
    · have e := illegalWord_outside_fault s.countCommand (by simpa using hp)
      simp [hp, e]
  | ok i =>
    rw [accept_command s w i hw] at h
    cases i with
    | data d =>
      by_cases hp : s.phase = .fault
      · rw [exec, execData_fault _ d (by simpa using hp)] at h; cases h; simp [hp]
      · rw [exec, execData_busy _ d (by simpa using hp)] at h; cases h; simp [hp]
    | endFrame =>
      by_cases hp : s.phase = .fault
      · rw [exec, execEnd_fault _ (by simpa using hp)] at h; cases h; simp [hp]
      · cases hb : lengthBad s
        · rw [exec, execEnd_closes _ (by simpa using hp) (by rw [hl, hb])] at h; cases h; simp [hp]
        · rw [exec, execEnd_bad _ (by simpa using hp) (by rw [hl, hb])] at h; cases h; simp [hp]
    | cfg m =>
      cases hp : s.phase
      · rw [exec, execCfg_idle _ m (by simpa using hp)] at h; cases h; simp
      · rw [exec, execCfg_busy _ m (by simpa using hp)] at h; cases h; simp
      · rw [exec, execCfg_fault _ m (by simpa using hp)] at h; cases h; simp
    | clr =>
      cases hp : s.phase
      · rw [exec, execClr_closed _ (by simp [hp])] at h; cases h; simp
      · rw [exec, execClr_busy _ (by simpa using hp)] at h; cases h; simp
      · rw [exec, execClr_closed _ (by simp [hp])] at h; cases h; simp

/-- Everything a step can do, by what stands at the head of IN. -/
theorem step_cases :
    (s.inp = [] ∧ step s = .next s) ∨
    (∃ w rest, s.inp = .word w :: rest ∧ step s = accept w { s with inp := rest }) ∨
    (∃ rest, s.inp = .rst :: rest ∧ s.cmdidx ≠ 0 ∧ step s = .refused .midRunReset) ∨
    (∃ rest, s.inp = .rst :: rest ∧ s.cmdidx = 0 ∧ step s = .next (State.resetWith rest)) := by
  unfold step takeInput
  cases h : s.inp with
  | nil => exact .inl ⟨rfl, rfl⟩
  | cons x rest =>
    cases x with
    | word w => exact .inr (.inl ⟨w, rest, rfl, rfl⟩)
    | rst =>
      by_cases hc : s.cmdidx = 0
      · exact .inr (.inr (.inr ⟨rest, rfl, hc, by simp [State.midRun, hc]⟩))
      · exact .inr (.inr (.inl ⟨rest, rfl, hc, by simp [State.midRun, hc]⟩))

end Sys2Proof.Machine
end

