-- ==== Sys2Proof/Laws/PerInstr.lean ====
section
/-! SUPPORT. Statements made per instruction, one lemma per constructor of Instr. -/

/-- Decoding a command's word gives the command back (R43, R44). -/
def Sys2Proof.Laws.RoundTrip.Statement (i : Sys2Proof.Instr) : Prop :=
  Sys2Proof.decode (Sys2Proof.encode i) = .ok i

namespace Sys2Proof.Laws.RoundTrip

theorem data (d : Byte) : Statement (.data d) := by
  simp [Statement, decode, encode, op_append, data_append]

theorem endFrame : Statement .endFrame := by
  unfold Statement; rfl

theorem cfg (m : Mode) : Statement (.cfg m) := by
  unfold Statement
  have h : ∀ m : Mode, CmdWord.op (encode (.cfg m)) = 0b10#2 ∧ CmdWord.cfgReserved (encode (.cfg m)) = 0#6 ∧
      CmdWord.cfgMode (encode (.cfg m)) = m := by decide
  obtain ⟨h1, h2, h3⟩ := h m
  simp [decode, h1, h2, h3]

theorem clr : Statement .clr := by
  unfold Statement; rfl

end Sys2Proof.Laws.RoundTrip
end

