-- ==== Sys2Proof/Laws/Ports.lean ====
section
/-! SUPPORT. What a clock edge can do: the output transfer and the three kinds of edge (20_memory.md R41). -/
namespace Sys2Proof.Machine

variable (p : PortState)

@[simp] theorem transfer_core (b : Bool) : (p.transfer b).core = p.core := by
  unfold PortState.transfer; split <;> rfl

@[simp] theorem transfer_wait (b : Bool) : (p.transfer b).wait = p.wait := by
  unfold PortState.transfer; split <;> rfl

/-- The transfer moves words from OQ to the sink, in order. -/
theorem transfer_keeps_order (b : Bool) : (p.transfer b).taken ++ (p.transfer b).oq = p.taken ++ p.oq := by
  unfold PortState.transfer; split <;> simp_all

/-- What the sink takes at an edge: the oldest word of OQ, or nothing. -/
theorem transfer_taken (b : Bool) : (p.transfer b).taken = p.taken ++ (if b then p.oq.take 1 else []) := by
  cases b <;> cases h : p.oq <;> simp [PortState.transfer, h]

theorem transfer_oq_le (b : Bool) : (p.transfer b).oq.length ≤ p.oq.length := by
  unfold PortState.transfer; split <;> simp_all

@[simp] theorem faultLine_eq_true (s : State) : s.faultLine = true ↔ s.phase = .fault := by simp [State.faultLine]

@[simp] theorem outputs_fault (P : Config.Params) : (p.outputs P).fault = p.core.faultLine := rfl
@[simp] theorem outputs_inReady (P : Config.Params) : (p.outputs P).inReady = p.inReady P := rfl
@[simp] theorem outputs_outWord (P : Config.Params) : (p.outputs P).outWord = p.oq.head? := rfl

theorem outputs_status (P : Config.Params) (h : p.wait = 0) : (p.outputs P).status = p.core.status := by
  simp [PortState.outputs, PortState.statusPort, h]

/-- Everything an edge can do: reset, accept the offered word, or only transfer. -/
theorem clockEdge_cases (P : Config.Params) (i : PortIn) (q : PortState) (h : clockEdge P i p = .next q) :
    (i.rst = true ∧ q = PortState.reset) ∨
    (i.rst = false ∧ ∃ w c, i.inWord = some w ∧ p.inReady P = true ∧ accept w p.core = .next c ∧
      q = { p.transfer i.outReady with
              core := c, oq := (p.transfer i.outReady).oq ++ pushed p.core c, wait := P.cyclesPerCmd - 1 }) ∨
    (i.rst = false ∧ (i.inWord = none ∨ p.inReady P = false) ∧
      q = { p.transfer i.outReady with wait := p.wait - 1 }) := by
  unfold clockEdge at h
  split at h
  · rename_i hr
    cases h; exact .inl ⟨hr, rfl⟩
  · rename_i hr
    have hr' : i.rst = false := by simpa using hr
    split at h
    · rename_i w hw
      split at h
      · rename_i hin
        obtain ⟨c, hc⟩ := accept_completes p.core w
        simp only [PortState.acceptWord, transfer_core, hc] at h
        cases h
        exact .inr (.inl ⟨hr', w, c, hw, hin, hc, rfl⟩)
      · rename_i hin
        cases h; exact .inr (.inr ⟨hr', .inr (by simpa using hin), rfl⟩)
    · rename_i hw
      cases h; exact .inr (.inr ⟨hr', .inl hw, rfl⟩)

end Sys2Proof.Machine
end

