-- ==== Sys2Proof/Laws/Rle.lean ====
section
/-! SUPPORT. The defining equations of rle (41_rle.md R64) and dec (R72), which later proofs cite instead of unfolding. -/
namespace Sys2Proof.Machine

/-- More bound than bytes changes nothing. -/
theorem rleFuel_enough (n m : Nat) : ∀ B : List Byte, B.length ≤ n → B.length ≤ m → rleFuel n B = rleFuel m B := by
  induction n generalizing m with
  | zero =>
    intro B hn _
    obtain rfl : B = [] := by simpa using hn
    cases m <;> rfl
  | succ n ih =>
    intro B hn hm
    cases B with
    | nil => cases m <;> rfl
    | cons b T =>
      cases m with
      | zero => simp at hm
      | succ m =>
        simp only [List.length_cons] at hn hm
        have hd : ∀ k, (T.drop k).length ≤ T.length := fun k => by simp
        simp only [rleFuel]
        split
        · rw [ih m (T.drop _) (Nat.le_trans (hd _) (by omega)) (Nat.le_trans (hd _) (by omega))]
        · rw [ih m T (by omega) (by omega)]

@[simp] theorem rle_nil : rle [] = [] := rfl

theorem rle_cons_literal (b : Byte) (T : List Byte) (h : b ≠ 0x00#8) : rle (b :: T) = b :: rle T := by
  simp [rle, rleFuel, h]

theorem rle_cons_zero (T : List Byte) :
    rle (0x00#8 :: T) =
      0x00#8 :: BitVec.ofNat 8 (1 + min (lz T) 254) :: rle (T.drop (min (lz T) 254)) := by
  simp only [rle, rleFuel, List.length_cons, if_true]
  rw [rleFuel_enough T.length (T.drop (min (lz T) 254)).length _ (by simp) (Nat.le_refl _)]

@[simp] theorem dec_nil : dec [] = .ok [] := by
  unfold dec; rfl

theorem dec_cons_literal (b : Byte) (T : List Byte) (h : b ≠ 0x00#8) : dec (b :: T) = (dec T).map (b :: ·) := by
  rw [dec.eq_def]; simp [h]

theorem dec_cons_run (n : Byte) (U : List Byte) (h : n ≠ 0x00#8) :
    dec (0x00#8 :: n :: U) = (dec U).map (List.replicate n.toNat 0x00#8 ++ ·) := by
  rw [dec.eq_def]; simp [h]

theorem dec_truncated : dec [0x00#8] = .error .truncatedRun := by
  rw [dec.eq_def]; simp

theorem dec_zero_count (U : List Byte) : dec (0x00#8 :: 0x00#8 :: U) = .error .zeroCount := by
  rw [dec.eq_def]; simp

end Sys2Proof.Machine
end

