-- ==== Sys2Proof/Tests/Slice0.lean ====
section
/-! SUPPORT. The model's own tests, each on values of the spec (95_test_vectors.md or a rule's own example, named in the
comment), and for every statement with hypotheses a witness that meets them. -/
namespace Sys2Proof.Tests

open Sys2Proof Sys2Proof.Machine

/-- The next state of an outcome, if it has one. -/
def after : Host.Outcome State Fault Refusal → Option State
  | .next s => some s
  | _ => none

/-- What one word pushes and the status word after it (the columns of 95_test_vectors.md section 2.11). -/
def shown (w : CmdWord) (s : State) : Option (List OutBits × StatusWord) :=
  (after (step (s.offer w))).map (fun t => ((pushed s t).map OutWord.bits, t.status))

/-- A state of an open frame (section 2.11's "start state" column). -/
def busyIn (m : Mode) (a : Byte) (k : BitVec 3) (r : Bool) (c : Byte) : State :=
  { State.reset with mode := m, phase := .busy, acc := a, bitcnt := k, run := r, cnt := c, out := [.byte 0x00#8], cmdidx := 1 }

/-- A state between frames, with input to come. -/
def idleIn (m : Mode) (inp : List HostInput) : State := { State.reset with mode := m, cmdidx := 1, inp := inp }

/-- A state in FAULT after a length error. -/
def faultIn (m : Mode) (inp : List HostInput) : State :=
  { State.reset with mode := m, phase := .fault, cause := .exc .invalidInputLength, acc := 0x01#8, bitcnt := 1#3,
                     out := [.abort (.exc .invalidInputLength)], cmdidx := 2, faults := [⟨2, .invalidInputLength⟩], inp := inp }

/-! ### WellFormed refuses an ill-formed term, for each check -/

theorem smoke_word_end_reserved : CmdWord.legal 0x101#10 = false := by decide
theorem smoke_word_cfg_reserved : CmdWord.legal 0x204#10 = false := by decide
theorem smoke_word_clr_reserved : CmdWord.legal 0x3FF#10 = false := by decide
theorem smoke_word_legal : CmdWord.legal 0x203#10 = true := by decide
theorem smoke_row_other_match : OpcodeRow.fits ⟨"END", 0x3FF, 0x100⟩ 0x101#10 = false := by decide
theorem smoke_asm_data : AsmLine.wellFormed (.data 256) = false := by decide
theorem smoke_asm_cfg : AsmLine.wellFormed (.cfg 4) = false := by decide
theorem smoke_asm_word : AsmLine.wellFormed (.word 1024) = false := by decide
theorem smoke_asm_rep : AsmLine.wellFormed (.rep 3 256) = false := by decide
theorem smoke_asm_pix8 : AsmLine.wellFormed (.pix8 256) = false := by decide
theorem smoke_params_depth : Config.Params.valid { oqDepth := 1, cyclesPerCmd := 1 } = false := by decide
theorem smoke_params_cycles : Config.Params.valid { oqDepth := 2, cyclesPerCmd := 0 } = false := by decide

/-! ### Decoding words written out from R43's bits (95_test_vectors.md section 2.10) -/

theorem decode_data : decode 0b0011001000#10 = .ok (.data 200#8) := by rfl
theorem decode_end : decode 0b0100000000#10 = .ok .endFrame := by rfl
theorem decode_cfg : decode 0b1000000011#10 = .ok (.cfg 3#2) := by rfl
theorem decode_clr : decode 0b1100000000#10 = .ok .clr := by rfl
theorem decode_end_reserved : decode 0b0110000000#10 = .error .endOperandNotZero := by rfl
theorem decode_cfg_reserved : decode 0b1000001000#10 = .error .cfgReservedBits := by rfl
theorem decode_clr_reserved : decode 0b1100000001#10 = .error .clrOperandNotZero := by rfl
theorem decode_bytes_wide : decodeBytes [0x00#8, 0x04#8] = .error .widerThanTenBits := by rfl
theorem decode_bytes_short : decodeBytes [0x00#8] = .error .tooFewBytes := by rfl

/-! ### One step of each command (95_test_vectors.md section 2.11) -/

/-- Row 8: the 8th pixel of a group closes a run of 254 with its count byte and a literal. -/
theorem test_data_pack_rle_closes_run :
    shown 0x0FF#10 (busyIn 0b00#2 0x7F#8 7#3 true 0xFE#8) = some ([0x0FE#10, 0x0FF#10], 0x00000001#32) := by decide

/-- Row 14: a packed byte in PACK_ONLY. -/
theorem test_data_pack_only :
    shown 0x001#10 (busyIn 0b10#2 0x7F#8 7#3 false 0x00#8) = some ([0x0FF#10], 0x00000009#32) := by decide

/-- END flushes the owed count byte before EOF. -/
theorem test_end_flushes :
    shown 0x100#10 (busyIn 0b01#2 0x00#8 0#3 true 0x01#8) = some ([0x001#10, 0x100#10], 0x00000004#32) := by decide

/-- END on a partial group: the owed count byte is not pushed, the data registers are frozen. -/
theorem test_end_length_fault :
    shown 0x100#10 (busyIn 0b00#2 0x05#8 3#3 true 0x02#8) = some ([0x201#10], 0x01050272#32) := by decide

theorem test_cfg_in_idle : shown 0x203#10 State.reset = some ([], 0x0000000C#32) := by decide

/-- CFG in BUSY faults even when m equals MODE (section 2.12). -/
theorem test_cfg_in_busy :
    shown 0x201#10 (busyIn 0b01#2 0x00#8 0#3 false 0x00#8) = some ([0x203#10], 0x03000006#32) := by decide

theorem test_clr_cancels :
    shown 0x300#10 (busyIn 0b00#2 0x05#8 3#3 true 0x09#8) = some ([0x204#10], 0x00000000#32) := by decide

theorem test_clr_leaves_fault : shown 0x300#10 (faultIn 0b01#2 []) = some ([], 0x00000004#32) := by decide

/-! ### Illegal and discarded words (section 2.12) -/

theorem test_illegal_before_length :
    shown 0x101#10 (busyIn 0b00#2 0x01#8 1#3 false 0x00#8) = some ([0x202#10], 0x02010022#32) := by decide

theorem test_illegal_discarded_in_fault : shown 0x3FF#10 (faultIn 0b00#2 []) = some ([], 0x01010022#32) := by decide

/-! ### The functions, the sink, the ports, the assembler -/

/-- Section 2.3. -/
theorem test_pack8 : pack8 2 4 8 16 32 64 128 0 = 0xFE#8 := by decide

/-- Section 2.8 and 2.9: a count byte equal to the literal after it. -/
theorem test_rle_count_like_literal : rle (List.replicate 65 0x00#8 ++ [0x41#8]) = [0x00#8, 0x41#8, 0x41#8] := by decide

theorem test_dec_expands : dec [0x00#8, 0x02#8, 0x18#8, 0x00#8, 0x01#8] = .ok [0x00#8, 0x00#8, 0x18#8, 0x00#8] := by rfl
theorem test_dec_truncated : dec [0x00#8, 0x03#8, 0x00#8] = .error .truncatedRun := by rfl
theorem test_dec_zero_count : dec [0x00#8, 0x00#8, 0x07#8] = .error .zeroCount := by rfl

/-- Program P8: the cancelled frame is discarded, the next one kept. -/
theorem test_sink_discards_abort :
    keptStreams [.byte 0x00#8, .abort .cancelled, .byte 0x41#8, .eof] = [[0x41#8]] := by decide

/-- R41, R54: text to words, a comment, a name, a pseudo-instruction. -/
theorem test_assemble :
    assemble "CFG RLE_ONLY ; comment\n\nREP 2, 0x0a\n.word 0x2FF\nEND" =
      .ok [0x201#10, 0x00A#10, 0x00A#10, 0x2FF#10, 0x100#10] := by rfl

theorem test_assemble_out_of_range : assemble "DATA 256" = .error .outOfRange := by rfl

/-- R41: with one entry of two taken, in_ready is 0 and the offered word is not accepted. -/
theorem test_port_waits :
    (match clockEdge { oqDepth := 2, cyclesPerCmd := 1 } { rst := false, inWord := some 0x100#10, outReady := false }
        { PortState.reset with oq := [.eof] } with
      | .next q => some (q.oq, q.core.cmdidx)
      | _ => none) = some ([.eof], 0) := by decide

/-! ### Witnesses: every statement's hypotheses are met -/

theorem idleIn_inv (m : Mode) (inp : List HostInput) : (idleIn m inp).Inv :=
  ⟨fun _ => ⟨rfl, rfl, rfl, rfl, rfl⟩, by simp [idleIn, State.reset], fun _ => rfl, by simp [idleIn, State.reset],
   fun _ => ⟨rfl, rfl⟩, by simp [idleIn, State.reset], fun _ => ⟨rfl, rfl⟩⟩

theorem idleIn_histInv (m : Mode) (inp : List HostInput) : (idleIn m inp).HistInv :=
  ⟨by simp [idleIn, State.reset], by simp [idleIn, State.reset], by simp [idleIn, State.reset],
   by simp [idleIn, State.reset], by simp [idleIn, State.reset]⟩

theorem faultIn_inv (m : Mode) (hm : bypPack m = false) (inp : List HostInput) : (faultIn m inp).Inv :=
  ⟨by simp [faultIn], by simp [faultIn], fun _ => rfl, by simp [faultIn, State.reset],
   by simp [faultIn, hm], by simp [faultIn], fun _ => ⟨rfl, rfl⟩⟩

/-- DATA 5 from reset: R75's example. -/
theorem witness_StepKeepsInv : ∃ s t : State, s.Inv ∧ s.HistInv ∧ step s = .next t ∧ t.status = 0x00010021#32 :=
  ⟨idleIn 0b00#2 [.word 0x005#10], _, idleIn_inv _ _, idleIn_histInv _ _, rfl, by decide⟩

theorem witness_StepKeepsHistInv : ∃ s t : State, s.Inv ∧ s.HistInv ∧ step s = .next t ∧ t.faults ≠ s.faults :=
  ⟨idleIn 0b00#2 [.word 0x101#10], _, idleIn_inv _ _, idleIn_histInv _ _, rfl, by decide⟩

theorem witness_ReachableStates_busy :
    let s := feedAll State.reset [0x001#10, 0x000#10]
    bypPack s.mode = false ∧ s.phase = .busy ∧ s.bitcnt = 2#3 ∧ frameDataCount State.reset 0 [0x001#10, 0x000#10] = 2 := by
  decide

theorem witness_ReachableStates_mode : (feed (feedAll State.reset [0x100#10]) 0x203#10).mode ≠ (feedAll State.reset [0x100#10]).mode := by
  decide

theorem witness_DecodeOfEncode : (Instr.cfg 3#2).wellFormed = true ∧ (Instr.data 0xFF#8).wellFormed = true := by decide

theorem witness_EncodeOfDecode : ∃ w i, decode w = .ok i ∧ i ≠ .clr := ⟨0x0C8#10, _, rfl, by decide⟩

theorem witness_IllegalWords_bounds :
    ([0x101#10, 0x1FF#10, 0x204#10, 0x2FF#10, 0x301#10, 0x3FF#10].all (fun w => !CmdWord.legal w)) = true ∧
    ([0x0FF#10, 0x100#10, 0x200#10, 0x203#10, 0x300#10].all CmdWord.legal) = true := by decide

theorem witness_IllegalWords_phases :
    decode 0x101#10 = .error .endOperandNotZero ∧ (idleIn 0b00#2 []).phase ≠ .fault ∧ (faultIn 0b00#2 []).phase = .fault :=
  ⟨rfl, by decide, rfl⟩

theorem witness_OutputWords :
    (∃ t, accept 0x100#10 (idleIn 0b00#2 []) = .next t ∧ .eof ∈ pushed (idleIn 0b00#2 []) t) ∧
    (∃ t, accept 0x101#10 (idleIn 0b00#2 []) = .next t ∧ .abort (.exc .illegalCommand) ∈ pushed (idleIn 0b00#2 []) t) ∧
    (∃ t, accept 0x300#10 (busyIn 0b00#2 0 0 false 0) = .next t ∧ .abort .cancelled ∈ pushed (busyIn 0b00#2 0 0 false 0) t) :=
  ⟨⟨_, rfl, by decide⟩, ⟨_, rfl, by decide⟩, ⟨_, rfl, by decide⟩⟩

theorem witness_StatusWord : (idleIn 0b01#2 []).status = (idleIn 0b01#2 [.rst]).status ∧
    idleIn 0b01#2 [] ≠ idleIn 0b01#2 [.rst] := by decide

theorem witness_StartValueDoesNotMatter : 8 ≤ [9#8, 0, 9, 0, 9, 0, 9, 0].length := by decide

theorem witness_PackRule : [1#8, 0, 0, 0, 0, 0, 0, 0].length % 8 = 0 ∧ [0#8].length % 8 ≠ 0 ∧ [0#8, 0, 0, 0, 0, 0, 0].length % 8 ≠ 0 := by
  decide

theorem witness_PackLaws :
    pack [0#8, 0, 0, 0, 0, 0, 0, 1] = .ok [0x01#8] ∧ 0 < [0x01#8].length ∧ [0#8, 7].map thr = [0#8, 9].map thr ∧
    pack [0#8] = .error .invalidInputLength ∧ pack [] = .ok [] := ⟨rfl, by decide, by decide, rfl, rfl⟩

theorem witness_PkStepsPackGroups : (idleIn 0b00#2 []).bitcnt = 0#3 := by decide

theorem witness_RlStepTable :
    (busyIn 0b01#2 0 0 false 0).run = false ∧ (busyIn 0b01#2 0 0 true 1).run = true ∧
    (busyIn 0b01#2 0 0 true 253).cnt.toNat < 254 ∧ (busyIn 0b01#2 0 0 true 254).cnt.toNat = 254 := by decide

theorem witness_RlFlushRule : (busyIn 0b01#2 0 0 true 45).run = true ∧ (busyIn 0b01#2 0 0 false 0).run = false := by decide

theorem witness_EncoderRefinesRle :
    (idleIn 0b01#2 []).run = false ∧ (idleIn 0b01#2 []).cnt = 0x00#8 ∧ (rlSteps [0x00#8] (idleIn 0b01#2 [])).run = true ∧
    (rlSteps [0x41#8] (idleIn 0b01#2 [])).run = false := by decide

theorem witness_ZeroRunSplit : 1 ≤ 300 ∧ tz [0x07#8] = 0 ∧ lz [0x07#8] = 0 ∧ tz [] = 0 ∧ lz [] = 0 := by decide

theorem witness_RleLaws : ∀ b ∈ [0x01#8, 0x02#8, 0x03#8], b ≠ 0x00#8 := by decide

theorem witness_DecoderRule : [Token.lit 0x41#8, .zrun 0x01#8, .zrun 0xFF#8].all Token.wellFormed = true := by decide

theorem witness_RoundTrip :
    dec [0x00#8, 0x01#8, 0x00#8, 0x01#8] = .ok [0x00#8, 0x00#8] ∧ rle [0x00#8, 0x00#8] ≠ [0x00#8, 0x01#8, 0x00#8, 0x01#8] ∧
    dec [0x00#8, 0x02#8] = .ok [0x00#8, 0x00#8] ∧ rle [0x00#8, 0x00#8] = [0x00#8, 0x02#8] ∧
    codec 0b00#2 [1#8, 0, 0, 0, 0, 0, 0, 0] = .ok [0x80#8] := ⟨rfl, by decide, rfl, by decide, rfl⟩

theorem witness_DataExecutes :
    (∀ m : Mode, (idleIn m []).phase ≠ .fault ∧ (idleIn m []).mode = m) ∧
    (busyIn 0b00#2 0x40#8 7#3 false 0x00#8).bitcnt = 7#3 ∧ (busyIn 0b10#2 0x40#8 6#3 false 0x00#8).bitcnt ≠ 7#3 := by decide

theorem witness_EndExecutes :
    (busyIn 0b00#2 1 1 false 0).phase ≠ .fault ∧ (busyIn 0b00#2 1 1 false 0).mode.getLsbD 0 = false ∧
    (busyIn 0b00#2 1 1 false 0).bitcnt ≠ 0#3 ∧ (busyIn 0b01#2 0 0 true 1).mode.getLsbD 0 = true ∧
    (busyIn 0b01#2 0 0 true 1).mode.getLsbD 1 = false ∧ (busyIn 0b01#2 0 0 true 1).run = true ∧
    (busyIn 0b10#2 0 0 false 0).bitcnt = 0#3 ∧ (busyIn 0b10#2 0 0 false 0).mode.getLsbD 1 = true := by decide

theorem witness_EndExecutes_inv : (idleIn 0b00#2 []).Inv ∧ (idleIn 0b00#2 []).phase ≠ .fault ∧ (idleIn 0b00#2 []).bitcnt = 0#3 :=
  ⟨idleIn_inv _ _, by decide, rfl⟩

theorem witness_CfgExecutes :
    (idleIn 0b11#2 []).phase = .idle ∧ (busyIn 0b11#2 0 0 false 0).phase = .busy ∧ (faultIn 0b00#2 []).phase = .fault := by decide

theorem witness_ClrExecutes :
    (busyIn 0b00#2 5 3 true 9).phase = .busy ∧ (faultIn 0b00#2 []).phase ≠ .busy ∧ (idleIn 0b10#2 []).phase = .idle ∧
    (idleIn 0b10#2 []).Inv := ⟨rfl, by decide, rfl, idleIn_inv _ _⟩

theorem witness_DiscardInFault :
    (faultIn 0b00#2 [.word 0x301#10, .rst]).phase = .fault ∧ (faultIn 0b00#2 [.word 0x301#10, .rst]).inp = .word 0x301#10 :: [.rst] ∧
    (0x301#10 : CmdWord) ≠ 0x300#10 := by decide

theorem witness_OnlyClrLeavesFault :
    ∃ t, (faultIn 0b00#2 [.word 0x300#10]).phase = .fault ∧ step (faultIn 0b00#2 [.word 0x300#10]) = .next t ∧ t.phase ≠ .fault :=
  ⟨_, rfl, rfl, by decide⟩

theorem witness_FaultEntryIsPrecise :
    ∃ t, (busyIn 0b00#2 5 3 true 2).phase ≠ .fault ∧ accept 0x100#10 (busyIn 0b00#2 5 3 true 2) = .next t ∧ t.phase = .fault :=
  ⟨_, by decide, rfl, rfl⟩

theorem witness_WhichWordsFault :
    (∃ t, accept 0x2FF#10 (busyIn 0b00#2 0 0 false 0) = .next t ∧ t.cause = .exc .illegalCommand ∧ t.phase = .fault) ∧
    (∃ t, accept 0x200#10 (busyIn 0b00#2 0 0 false 0) = .next t ∧ t.cause = .exc .configWhileBusy ∧ t.phase = .fault) ∧
    (∃ t, accept 0x100#10 (busyIn 0b10#2 0 4 false 0) = .next t ∧ t.cause = .exc .invalidInputLength ∧ t.phase = .fault) ∧
    (∃ t, accept 0x101#10 (faultIn 0b00#2 []) = .next t ∧ (faultIn 0b00#2 []).phase = .fault) :=
  ⟨⟨_, rfl, rfl, rfl⟩, ⟨_, rfl, rfl, rfl⟩, ⟨_, rfl, rfl, rfl⟩, ⟨_, rfl, rfl⟩⟩

theorem busyIn_inv : (busyIn 0b00#2 0x05#8 3#3 true 0x02#8).Inv :=
  ⟨by decide, by decide, by decide, by decide, by decide, by decide, by decide⟩

theorem witness_PhaseTable :
    (∃ t, (busyIn 0b00#2 0x05#8 3#3 true 0x02#8).Inv ∧ accept 0x100#10 (busyIn 0b00#2 0x05#8 3#3 true 0x02#8) = .next t) ∧
    (∃ t, (idleIn 0b11#2 []).Inv ∧ accept 0x101#10 (idleIn 0b11#2 []) = .next t) ∧
    (∃ t, (faultIn 0b00#2 []).Inv ∧ accept 0x300#10 (faultIn 0b00#2 []) = .next t) :=
  ⟨⟨_, busyIn_inv, rfl⟩, ⟨_, idleIn_inv _ _, rfl⟩, ⟨_, faultIn_inv _ rfl _, rfl⟩⟩

theorem witness_AtMostTwoWords :
    (∃ t, accept 0x018#10 (busyIn 0b01#2 0 0 true 2) = .next t ∧ (pushed (busyIn 0b01#2 0 0 true 2) t).length = 2) ∧
    (∃ t, accept 0x100#10 (busyIn 0b01#2 0 0 true 4) = .next t ∧ t.phase ≠ .fault) ∧
    (∃ t, accept 0x203#10 (idleIn 0b00#2 []) = .next t ∧ (idleIn 0b00#2 []).phase = .idle) ∧
    (∃ t, accept 0x300#10 (busyIn 0b01#2 0 0 true 4) = .next t) ∧ (∃ t, accept 0x000#10 (faultIn 0b00#2 []) = .next t) :=
  ⟨⟨_, rfl, by decide⟩, ⟨_, rfl, by decide⟩, ⟨_, rfl, rfl⟩, ⟨_, rfl⟩, ⟨_, rfl⟩⟩

theorem witness_StepRunsDecoded :
    (idleIn 0b00#2 [.word 0x0C8#10, .rst]).inp = .word 0x0C8#10 :: [.rst] ∧ decode 0x0C8#10 = .ok (.data 200#8) := ⟨rfl, rfl⟩

theorem witness_DataFrame :
    (∀ m : Mode, ∃ t, exec (.data 0x05#8) (idleIn m []) = .next t) ∧ (∃ t, exec (.data 0x05#8) (faultIn 0b00#2 []) = .next t) ∧
    (idleIn 0b01#2 []).mode.getLsbD 0 = true ∧ (idleIn 0b10#2 []).mode.getLsbD 1 = true ∧
    (idleIn 0b00#2 []).mode.getLsbD 0 = false ∧ (idleIn 0b00#2 []).bitcnt ≠ 7#3 := by
  refine ⟨fun m => ⟨_, rfl⟩, ⟨_, rfl⟩, by decide, by decide, by decide, by decide⟩

theorem witness_SystemFrame :
    (∃ t, exec .endFrame (busyIn 0b01#2 0 0 true 1) = .next t) ∧ (∃ t, exec (.cfg 1#2) (busyIn 0b01#2 0 0 true 1) = .next t) ∧
    (∃ t, exec (.cfg 1#2) (idleIn 0b00#2 []) = .next t) ∧ (∃ t, exec .clr (faultIn 0b00#2 []) = .next t) ∧
    (busyIn 0b10#2 0 0 false 0).mode.getLsbD 1 = true :=
  ⟨⟨_, rfl⟩, ⟨_, rfl⟩, ⟨_, rfl⟩, ⟨_, rfl⟩, by decide⟩

theorem witness_OnlyCfgChangesMode :
    ∃ t, (idleIn 0b00#2 [.word 0x203#10]).inp = .word 0x203#10 :: [] ∧ step (idleIn 0b00#2 [.word 0x203#10]) = .next t ∧
      t.mode ≠ (idleIn 0b00#2 [.word 0x203#10]).mode := ⟨_, rfl, rfl, by decide⟩

theorem witness_NoFaultMeansNeverInFault :
    ∃ t, (idleIn 0b11#2 (frameInputs [0x7E#8])).Inv ∧ (idleIn 0b11#2 (frameInputs [0x7E#8])).HistInv ∧
      Sys2Proof.core.run 2 (idleIn 0b11#2 (frameInputs [0x7E#8])) = .next t ∧ t.neverFaulted :=
  ⟨_, idleIn_inv _ _, idleIn_histInv _ _, rfl, rfl⟩

theorem witness_IdleKeepsState : (busyIn 0b01#2 0 0 true 9).inp = [] := by decide

theorem witness_frames :
    (idleIn 0b10#2 (frameInputs [0x07#8])).Inv ∧ (idleIn 0b10#2 (frameInputs [0x07#8])).phase = .idle ∧
    (idleIn 0b10#2 (frameInputs [0x07#8])).inp = frameInputs [0x07#8] ++ [] ∧
    (idleIn 0b10#2 (dataInputs [0x07#8])).inp = dataInputs [0x07#8] ++ [] :=
  ⟨idleIn_inv _ _, rfl, rfl, rfl⟩

theorem witness_FrameRefinesCodec :
    (idleIn 0b00#2 (frameInputs [1, 0, 0, 0, 0, 0, 0, 0])).Inv ∧
    codec (idleIn 0b00#2 (frameInputs [1, 0, 0, 0, 0, 0, 0, 0])).mode [1, 0, 0, 0, 0, 0, 0, 0] = .ok [0x80#8] ∧
    codec 0b01#2 [0x00#8] = .ok [0x00#8, 0x01#8] ∧ codec 0b10#2 [] = .ok [] ∧ codec 0b11#2 [0x00#8] = .ok [0x00#8] :=
  ⟨idleIn_inv _ _, rfl, rfl, rfl, rfl⟩

theorem witness_BadFrameAborts :
    codec 0b00#2 [0x07#8] = .error .invalidInputLength ∧ codec 0b10#2 [0x07#8] = .error .invalidInputLength := ⟨rfl, rfl⟩

theorem witness_FramesAreIndependent :
    (idleIn 0b01#2 []).Inv ∧ ({ idleIn 0b01#2 [] with out := [.eof], faults := [⟨1, .illegalCommand⟩] } : State).Inv ∧
    (idleIn 0b01#2 []).mode = 0b01#2 := by
  obtain ⟨h1, h2, h3, h4, h5, h6, h7⟩ := idleIn_inv 0b01#2 []
  exact ⟨⟨h1, h2, h3, h4, h5, h6, h7⟩, ⟨h1, h2, h3, h4, h5, h6, h7⟩, rfl⟩

theorem witness_SinkKeepsCodecOutput :
    ∃ t, (idleIn 0b11#2 (frameInputs [0x7E#8])).Inv ∧ (idleIn 0b11#2 (frameInputs [0x7E#8])).HistInv ∧
      Sys2Proof.core.run ([0x7E#8].length + 1) (idleIn 0b11#2 (frameInputs [0x7E#8])) = .next t ∧ t.phase = .idle :=
  ⟨_, idleIn_inv _ _, idleIn_histInv _ _, rfl, rfl⟩

theorem witness_ConsumerRecovers :
    codec 0b00#2 [0, 0, 0, 0, 0, 0, 0, 0] = .ok [0x00#8, 0x01#8] ∧ codec 0b01#2 [0x00#8] = .ok [0x00#8, 0x01#8] ∧
    codec 0b10#2 [0, 0, 0, 0, 0, 0, 0, 0] = .ok [0x00#8] ∧ codec 0b11#2 [0x00#8] = .ok [0x00#8] := ⟨rfl, rfl, rfl, rfl⟩

theorem witness_FrameWordBounds : ∀ m : Mode,
    (idleIn m (frameInputs [0, 0, 0, 0, 0, 0, 0, 0] ++ [.rst])).Inv ∧
    (idleIn m (frameInputs [0, 0, 0, 0, 0, 0, 0, 0] ++ [.rst])).phase = .idle ∧
    (idleIn m (frameInputs [0, 0, 0, 0, 0, 0, 0, 0] ++ [.rst])).inp = frameInputs [0, 0, 0, 0, 0, 0, 0, 0] ++ [.rst] ∧
    (idleIn m (frameInputs [0, 0, 0, 0, 0, 0, 0, 0] ++ [.rst])).mode = m ∧ [0#8, 0, 0, 0, 0, 0, 0, 0].length % 8 = 0 :=
  fun _ => ⟨idleIn_inv _ _, rfl, rfl, rfl, rfl⟩

/-- R71: an alternating input, `[0x00, 0x18, 0x00]`, meets the upper bound's hypothesis. -/
theorem witness_RleSizeBounds :
    ∀ i, i < [0x00#8, 0x18#8, 0x00#8].length → ([0x00#8, 0x18#8, 0x00#8][i]? = some 0x00#8 ↔ i % 2 = 0) := by decide

theorem witness_AllBackgroundImage :
    ({ oqDepth := 2, cyclesPerCmd := 1 } : Config.Params).imgW = 128 ∧
    ({ oqDepth := 2, cyclesPerCmd := 1 } : Config.Params).imgH = 64 := by decide

theorem witness_ResetEvent :
    (idleIn 0b00#2 [.rst]).cmdidx ≠ 0 ∧ ({ State.reset with inp := [.rst] } : State).cmdidx = 0 := by decide

/-- U11: between steps the status port shows SW. -/
theorem test_status_port : PortState.reset.statusPort = 0x00000000#32 := by decide

theorem witness_ports :
    Config.Params.valid { oqDepth := 2, cyclesPerCmd := 3 } = true ∧
    PortState.reset.Inv { oqDepth := 2, cyclesPerCmd := 3 } ∧
    PortState.reset.inReady { oqDepth := 2, cyclesPerCmd := 3 } = true ∧
    PortState.inReady { oqDepth := 2, cyclesPerCmd := 3 } { PortState.reset with oq := [.eof] } = false ∧
    (∃ q, clockEdge { oqDepth := 2, cyclesPerCmd := 3 } { rst := false, inWord := some 0x100#10, outReady := true }
      PortState.reset = .next q ∧ q.oq = [.eof] ∧ q.wait = 2) ∧ 2 < [OutWord.eof].length + 2 :=
  ⟨by decide, ⟨rfl, by decide⟩, by decide, by decide, ⟨_, rfl, rfl, rfl⟩, by decide⟩

/-- R97: the fault output is 0 before an illegal word is accepted and 1 after it; CLR and reset each clear it. -/
theorem witness_fault_output :
    (PortState.reset.outputs { oqDepth := 2, cyclesPerCmd := 1 }).fault = false ∧
    (∃ q, clockEdge { oqDepth := 2, cyclesPerCmd := 1 } { rst := false, inWord := some 0x101#10, outReady := false }
      PortState.reset = .next q ∧ (q.outputs { oqDepth := 2, cyclesPerCmd := 1 }).fault = true) ∧
    (∃ q, clockEdge { oqDepth := 2, cyclesPerCmd := 1 } { rst := false, inWord := some 0x300#10, outReady := false }
      { PortState.reset with core := faultIn 0b00#2 [] } = .next q ∧
        (q.outputs { oqDepth := 2, cyclesPerCmd := 1 }).fault = false) ∧
    (∃ q, clockEdge { oqDepth := 2, cyclesPerCmd := 1 } { rst := true, inWord := none, outReady := false }
      { PortState.reset with core := faultIn 0b00#2 [] } = .next q ∧
        (q.outputs { oqDepth := 2, cyclesPerCmd := 1 }).fault = false) :=
  ⟨rfl, ⟨_, rfl, rfl⟩, ⟨_, rfl, rfl⟩, ⟨_, rfl, rfl⟩⟩

/-- An edge at which a ready sink takes the one queued word, from a state that meets the queue's invariant. -/
theorem witness_QueueLosesNothing :
    PortState.Inv { oqDepth := 2, cyclesPerCmd := 1 }
      { PortState.reset with core := { State.reset with out := [.eof] }, oq := [.eof] } ∧
    ∃ q, clockEdge { oqDepth := 2, cyclesPerCmd := 1 } { rst := false, inWord := none, outReady := true }
      { PortState.reset with core := { State.reset with out := [.eof] }, oq := [.eof] } = .next q ∧
      q.oq = [] ∧ q.taken = [.eof] :=
  ⟨⟨rfl, by decide⟩, _, rfl, rfl, rfl⟩

end Sys2Proof.Tests
end

/-! PROOFS. The status word and the reset state (10_state.md R19, R25). -/
namespace Sys2Proof.Machine

/-! ### The codes of PHASE and CAUSE tell their values apart (R16, R17) -/

theorem Phase.code_injective : Function.Injective Phase.code := by
  intro p q h
  cases p <;> cases q <;> simp [Phase.code] at h ⊢

theorem Exc.code_injective : Function.Injective Exc.code := by
  intro e f h
  cases e <;> cases f <;> simp [Exc.code] at h ⊢

/-- No exception has the code 0x00, which stands for "no fault" (R17). -/
theorem Exc.code_ne_zero (e : Exc) : e.code ≠ 0x00#8 := by
  cases e <;> simp [Exc.code]

theorem Cause.code_injective : Function.Injective Cause.code := by
  intro c d h
  match c, d with
  | .noFault, .noFault => rfl
  | .noFault, .exc f => exact absurd h.symm f.code_ne_zero
  | .exc e, .noFault => exact absurd h e.code_ne_zero
  | .exc e, .exc f => exact congrArg Cause.exc (Exc.code_injective h)

/-! ### The fields of the status word

Each field is reached by dropping the fields below it (`extractLsb'_append_eq_of_le`) and is then the low end of what
is left. -/

section Fields

variable (s : State)

@[simp] theorem status_phase : s.status.extractLsb' 0 2 = s.phase.code :=
  BitVec.extractLsb'_append_eq_right

@[simp] theorem status_mode : s.status.extractLsb' 2 2 = s.mode := by
  refine (BitVec.extractLsb'_append_eq_of_le (by decide)).trans ?_
  exact BitVec.extractLsb'_append_eq_right

@[simp] theorem status_run : s.status.extractLsb' 4 1 = BitVec.ofBool s.run := by
  iterate 2 refine (BitVec.extractLsb'_append_eq_of_le (by decide)).trans ?_
  exact BitVec.extractLsb'_append_eq_right

@[simp] theorem status_bitcnt : s.status.extractLsb' 5 3 = s.bitcnt := by
  iterate 3 refine (BitVec.extractLsb'_append_eq_of_le (by decide)).trans ?_
  exact BitVec.extractLsb'_append_eq_right

@[simp] theorem status_cnt : s.status.extractLsb' 8 8 = s.cnt := by
  iterate 4 refine (BitVec.extractLsb'_append_eq_of_le (by decide)).trans ?_
  exact BitVec.extractLsb'_append_eq_right

@[simp] theorem status_acc : s.status.extractLsb' 16 8 = s.acc := by
  iterate 5 refine (BitVec.extractLsb'_append_eq_of_le (by decide)).trans ?_
  exact BitVec.extractLsb'_append_eq_right

@[simp] theorem status_cause : s.status.extractLsb' 24 8 = s.cause.code := by
  iterate 6 refine (BitVec.extractLsb'_append_eq_of_le (by decide)).trans ?_
  exact BitVec.extractLsb'_eq_self

end Fields

@[simp] theorem reset_status : State.reset.status = 0x00000000#32 := by decide

/-- Equal status words mean equal registers: equal words have equal fields, and the codes in the fields are injective. -/
theorem registers_eq_of_status_eq {s t : State} (h : s.status = t.status) :
    s.mode = t.mode ∧ s.phase = t.phase ∧ s.cause = t.cause ∧ s.acc = t.acc ∧ s.bitcnt = t.bitcnt ∧
    s.run = t.run ∧ s.cnt = t.cnt := by
  have field (i n : Nat) : s.status.extractLsb' i n = t.status.extractLsb' i n := by rw [h]
  refine ⟨?mode, Phase.code_injective ?phase, Cause.code_injective ?cause, ?acc, ?bitcnt,
    BitVec.ofBool_eq_iff_eq.mp ?run, ?cnt⟩
  case phase => simpa using field 0 2
  case mode => simpa using field 2 2
  case run => simpa using field 4 1
  case bitcnt => simpa using field 5 3
  case cnt => simpa using field 8 8
  case acc => simpa using field 16 8
  case cause => simpa using field 24 8

/-- Settles O12: the seven fields by their lemmas, and the word determines the registers. -/
theorem statusWord : Obligations.StatusWord := by
  unfold Obligations.StatusWord
  exact ⟨fun s => ⟨status_phase s, status_mode s, status_run s, status_bitcnt s, status_cnt s, status_acc s,
    status_cause s⟩, reset_status, fun _ _ => registers_eq_of_status_eq⟩

/-- Settles O1: the reset state is written with these values (R25); its status word is `reset_status`. -/
theorem resetIsAllZero : Obligations.ResetIsAllZero := by
  unfold Obligations.ResetIsAllZero
  exact ⟨rfl, rfl, rfl, rfl, rfl, rfl, rfl, reset_status, rfl, rfl, rfl, rfl⟩

end Sys2Proof.Machine

/-! PROOFS. The order of the bits in a packed byte (20_memory.md R30; 30_encoding.md R47). -/
namespace Sys2Proof.Machine

/-! ### One step of sh, bit by bit (R56) -/

theorem sh_getLsbD_zero (a : Byte) (b : Bool) : (sh a b).getLsbD 0 = b := by
  simp [sh]

theorem sh_getLsbD_succ (a : Byte) (b : Bool) {k : Nat} (hk : k + 1 < 8) :
    (sh a b).getLsbD (k + 1) = a.getLsbD k := by
  simp [sh, hk, BitVec.getLsbD_eq_getElem (Nat.lt_of_succ_lt hk)]

/-! ### A row of pixels shifted in (R57) -/

@[simp] theorem shiftIn_concat (a : Byte) (P : List Byte) (p : Byte) :
    shiftIn a (P ++ [p]) = sh (shiftIn a P) (thr p) := by
  simp [shiftIn]

/-- The bits of the accumulator from the least significant up: the last pixel first, and above the row the bits of the
start value. -/
theorem shiftIn_getLsbD (a : Byte) (P : List Byte) {k : Nat} (hk : k < 8) :
    (shiftIn a P).getLsbD k =
      if k < P.length then thr (P.reverse.getD k 0x00#8) else a.getLsbD (k - P.length) := by
  induction P using List.reverseRecOn generalizing k with
  | nil => simp [shiftIn]
  | append_singleton P p ih =>
    rw [shiftIn_concat]
    cases k with
    | zero =>
      rw [sh_getLsbD_zero]
      simp
    | succ k => simp [sh_getLsbD_succ _ _ hk, ih (Nat.lt_of_succ_lt hk)]

/-- In a row of at most 8 pixels, pixel i lands as many places above bit 0 as pixels come after it. -/
theorem shiftIn_getLsbD_pixel (a : Byte) {P : List Byte} (hP : P.length ≤ 8) {i : Nat} (hi : i < P.length) :
    (shiftIn a P).getLsbD (P.length - 1 - i) = thr (P.getD i 0x00#8) := by
  have hk : P.length - 1 - i < P.length := by omega
  have hback : P.length - 1 - (P.length - 1 - i) = i := by omega
  rw [shiftIn_getLsbD a P (hk.trans_le hP), if_pos hk]
  simp [List.getElem?_reverse hk, hback]

/-- Settles O15: a group is a row of 8 pixels, so 7 - i pixels come after pixel i; the worked values are computed. -/
theorem packedBitOrder : Obligations.PackedBitOrder := by
  unfold Obligations.PackedBitOrder
  refine ⟨fun p0 p1 p2 p3 p4 p5 p6 p7 i hi => ?_, by decide, by decide⟩
  exact shiftIn_getLsbD_pixel 0x00#8 (P := [p0, p1, p2, p3, p4, p5, p6, p7]) le_rfl hi

end Sys2Proof.Machine

/-! PROOFS. The opcode table and the illegal words (30_encoding.md R43, R51). -/
namespace Sys2Proof

/-! ### Decoding inverts encoding (R43) -/

/-- A word is its operation code, the six bits that CFG reserves and CFG's operand (R42, R44). -/
theorem op_cfgReserved_cfgMode_eq (w : CmdWord) : CmdWord.op w ++ CmdWord.cfgReserved w ++ CmdWord.cfgMode w = w := by
  have high : CmdWord.op w ++ CmdWord.cfgReserved w = w.extractLsb' 2 8 :=
    BitVec.extractLsb'_append_extractLsb'_eq_extractLsb' rfl
  rw [high]
  exact BitVec.extractLsb'_append_extractLsb' (w := 8) (len := 2)

theorem encode_of_decode {w : CmdWord} {i : Instr} (h : decode w = .ok i) : encode i = w := by
  have fields := op_data_eq w
  have cfgFields := op_cfgReserved_cfgMode_eq w
  unfold decode at h
  split at h
  case isTrue data => cases h; rwa [data] at fields
  split at h
  case isTrue endOp =>
    split at h
    case isTrue zero => cases h; rwa [endOp, zero] at fields
    case isFalse => cases h
  split at h
  case isTrue cfgOp =>
    split at h
    case isTrue zero => cases h; rwa [cfgOp, zero] at cfgFields
    case isFalse => cases h
  split at h
  case isTrue zero =>
    have clrOp : CmdWord.op w = 0b11#2 := by bv_omega
    cases h
    rwa [clrOp, zero] at fields
  case isFalse => cases h

theorem decode_encode (i : Instr) : decode (encode i) = .ok i := by
  cases i with
  | data d => exact Laws.RoundTrip.data d
  | endFrame => exact Laws.RoundTrip.endFrame
  | cfg m => exact Laws.RoundTrip.cfg m
  | clr => exact Laws.RoundTrip.clr

/-- R43's table read by field: the word of a command is the only one that decodes to it. -/
theorem decode_eq_ok_iff (w : CmdWord) (i : Instr) : decode w = .ok i ↔ w = encode i := by
  constructor
  · intro h
    exact (encode_of_decode h).symm
  · rintro rfl
    exact decode_encode i

/-! ### The table's masks and matches -/

/-- A mask that covers the upper `k` bits fixes those and leaves the lower `n` free. -/
theorem and_highMask_eq_iff {k n : Nat} (x : BitVec (k + n)) (m : BitVec k) :
    x &&& (BitVec.allOnes k ++ 0#n) = m ++ 0#n ↔ ∃ low : BitVec n, x = m ++ low := by
  have masked (high : BitVec k) (low : BitVec n) : (high ++ low) &&& (BitVec.allOnes k ++ 0#n) = high ++ 0#n := by
    rw [BitVec.and_append, BitVec.and_allOnes, BitVec.and_zero]
  constructor
  · intro h
    rw [← BitVec.extractLsb'_append_extractLsb' (x := x), masked, BitVec.append_left_inj] at h
    exact ⟨x.extractLsb' 0 n, by rw [← h, BitVec.extractLsb'_append_extractLsb']⟩
  · rintro ⟨low, rfl⟩
    exact masked m low

/-- END's and CLR's rows fix every bit. -/
theorem and_fullMask_eq_iff (w m : CmdWord) : w &&& 0x3FF#10 = m ↔ w = m := by
  rw [show w &&& 0x3FF#10 = w from BitVec.and_allOnes]

theorem decode_data_iff_mask (w : CmdWord) : (∃ d, decode w = .ok (.data d)) ↔ w &&& 0x300#10 = 0x000#10 := by
  simp only [decode_eq_ok_iff]
  exact (and_highMask_eq_iff (k := 2) (n := 8) w 0b00#2).symm

theorem decode_endFrame_iff_mask (w : CmdWord) : decode w = .ok .endFrame ↔ w &&& 0x3FF#10 = 0x100#10 :=
  (decode_eq_ok_iff w _).trans (and_fullMask_eq_iff w _).symm

theorem decode_cfg_iff_mask (w : CmdWord) : (∃ m, decode w = .ok (.cfg m)) ↔ w &&& 0x3FC#10 = 0x200#10 := by
  simp only [decode_eq_ok_iff]
  exact (and_highMask_eq_iff (k := 8) (n := 2) w (0b10#2 ++ 0b000000#6)).symm

theorem decode_clr_iff_mask (w : CmdWord) : decode w = .ok .clr ↔ w &&& 0x3FF#10 = 0x300#10 :=
  (decode_eq_ok_iff w _).trans (and_fullMask_eq_iff w _).symm

/-- Every row's mask covers the operation code, so a word that fits a row has the row's operation code. -/
theorem op_eq_of_fits {r : OpcodeRow} (hr : r ∈ opcodeTable) {w : CmdWord} (h : r.fits w = true) :
    CmdWord.op r.matchBits = CmdWord.op w := by
  have covered : ∀ r ∈ opcodeTable, CmdWord.op r.mask = BitVec.allOnes 2 := by decide
  have bits : w &&& r.mask = r.matchBits := by simpa [OpcodeRow.fits] using h
  calc CmdWord.op r.matchBits
      = CmdWord.op w &&& CmdWord.op r.mask := by rw [← bits]; exact BitVec.extractLsb'_and
    _ = CmdWord.op w := by rw [covered r hr, BitVec.and_allOnes]

/-- No word fits two rows: the four rows have four operation codes. -/
theorem rows_fitting_le_one (w : CmdWord) : (opcodeTable.filter (fun r => r.fits w)).length ≤ 1 := by
  have distinct : ∀ o : BitVec 2, opcodeTable.countP (fun r => CmdWord.op r.matchBits = o) ≤ 1 := by decide
  calc (opcodeTable.filter (fun r => r.fits w)).length
      = opcodeTable.countP (fun r => r.fits w) := List.countP_eq_length_filter.symm
    _ ≤ opcodeTable.countP (fun r => CmdWord.op r.matchBits = CmdWord.op w) :=
        List.countP_mono_left fun r hr h => decide_eq_true (op_eq_of_fits hr h)
    _ ≤ 1 := distinct _

/-! ### Legal words -/

/-- A word fits a row of the table exactly when it is the word of a command. -/
theorem legal_iff_exists_decode (w : CmdWord) : w.legal = true ↔ ∃ i, decode w = .ok i := by
  have rows : w.legal = true ↔ w &&& 0x300#10 = 0x000#10 ∨ w &&& 0x3FF#10 = 0x100#10 ∨ w &&& 0x3FC#10 = 0x200#10 ∨
      w &&& 0x3FF#10 = 0x300#10 := by
    simp [CmdWord.legal, opcodeTable, OpcodeRow.fits]
  rw [rows, ← decode_data_iff_mask, ← decode_endFrame_iff_mask, ← decode_cfg_iff_mask, ← decode_clr_iff_mask]
  constructor
  · rintro (⟨d, h⟩ | h | ⟨m, h⟩ | h) <;> exact ⟨_, h⟩
  · rintro ⟨i, h⟩
    cases i with
    | data d => exact .inl ⟨d, h⟩
    | endFrame => exact .inr (.inl h)
    | cfg m => exact .inr (.inr (.inl ⟨m, h⟩))
    | clr => exact .inr (.inr (.inr h))

theorem decode_error_iff_not_legal (w : CmdWord) : (∃ r, decode w = .error r) ↔ w.legal = false := by
  rw [← Bool.not_eq_true, legal_iff_exists_decode]
  cases decode w with
  | ok i => simp
  | error r => simp

/-! ### The illegal words (R51) -/

/-- The legal words as numbers: DATA and END below, the four CFG words, CLR. -/
theorem legal_iff_toNat (w : CmdWord) :
    w.legal = true ↔ w.toNat ≤ 0x100 ∨ (0x200 ≤ w.toNat ∧ w.toNat ≤ 0x203) ∨ w.toNat = 0x300 := by
  have dataWord (d : Byte) : (encode (.data d)).toNat = d.toNat := by simp [encode, toNat_op_append]
  have cfgWord : ∀ m : Mode, (encode (.cfg m)).toNat = 0x200 + m.toNat := by decide
  simp only [legal_iff_exists_decode, decode_eq_ok_iff, ← BitVec.toNat_inj]
  constructor
  · rintro ⟨i, h⟩
    cases i with
    | data d => rw [dataWord] at h; omega
    | endFrame => exact .inl h.le
    | cfg m => rw [cfgWord] at h; omega
    | clr => exact .inr (.inr h)
  · rintro (h | h | h)
    · obtain h | h := h.lt_or_eq
      · refine ⟨.data (BitVec.ofNat 8 w.toNat), ?_⟩
        rw [dataWord, BitVec.toNat_ofNat, Nat.mod_eq_of_lt h]
      · exact ⟨.endFrame, h⟩
    · refine ⟨.cfg (BitVec.ofNat 2 (w.toNat - 0x200)), ?_⟩
      rw [cfgWord, BitVec.toNat_ofNat]
      omega
    · exact ⟨.clr, h⟩

theorem not_legal_iff_toNat (w : CmdWord) :
    w.legal = false ↔ (0x101 ≤ w.toNat ∧ w.toNat ≤ 0x1FF) ∨ (0x204 ≤ w.toNat ∧ w.toNat ≤ 0x2FF) ∨
      (0x301 ≤ w.toNat ∧ w.toNat ≤ 0x3FF) := by
  rw [← Bool.not_eq_true, legal_iff_toNat]
  omega

/-- The illegal numbers below 1024 are R51's three ranges. -/
theorem illegal_numbers_eq_ranges :
    ((List.range 1024).filter (fun n => !(CmdWord.legal (BitVec.ofNat 10 n)))).toFinset =
      Finset.Icc 0x101 0x1FF ∪ (Finset.Icc 0x204 0x2FF ∪ Finset.Icc 0x301 0x3FF) := by
  ext n
  simp only [List.mem_toFinset, List.mem_filter, List.mem_range, Bool.not_eq_true', not_legal_iff_toNat,
    BitVec.toNat_ofNat, Finset.mem_union, Finset.mem_Icc]
  omega

/-- 255 words with END's operation code, 252 with CFG's and 255 with CLR's. -/
theorem illegal_numbers_length :
    ((List.range 1024).filter (fun n => !(CmdWord.legal (BitVec.ofNat 10 n)))).length = 762 := by
  have inner : Disjoint (Finset.Icc 0x204 0x2FF) (Finset.Icc 0x301 0x3FF) := by
    rw [Finset.disjoint_left]
    simp only [Finset.mem_Icc]
    omega
  have outer : Disjoint (Finset.Icc 0x101 0x1FF) (Finset.Icc 0x204 0x2FF ∪ Finset.Icc 0x301 0x3FF) := by
    rw [Finset.disjoint_left]
    simp only [Finset.mem_union, Finset.mem_Icc]
    omega
  rw [← List.toFinset_card_of_nodup (List.nodup_range.filter _), illegal_numbers_eq_ranges,
    Finset.card_union_of_disjoint outer, Finset.card_union_of_disjoint inner]
  simp only [Nat.card_Icc]

end Sys2Proof

namespace Sys2Proof.Encoding

open Sys2Proof.Machine

/-- Settles O8: a word decodes to a command exactly when it is the command's word; the masks, the rows and the errors by
their lemmas. -/
theorem opcodeTable : Obligations.OpcodeTable := by
  unfold Obligations.OpcodeTable
  exact ⟨fun w d => decode_eq_ok_iff w (.data d), fun w => decode_eq_ok_iff w .endFrame,
    fun w m => decode_eq_ok_iff w (.cfg m), fun w => decode_eq_ok_iff w .clr,
    decode_data_iff_mask, decode_endFrame_iff_mask, decode_cfg_iff_mask, decode_clr_iff_mask,
    rows_fitting_le_one, decode_error_iff_not_legal⟩

/-- Settles O9: an illegal word is one that is not legal, its numbers are counted by range, and accepting it takes
`State.illegalWord` of the counted state. -/
theorem illegalWords : Obligations.IllegalWords := by
  unfold Obligations.IllegalWords
  refine ⟨fun w => (decode_error_iff_not_legal w).trans (not_legal_iff_toNat w), illegal_numbers_length, ?_⟩
  intro w r s hw
  rw [accept_illegal s w r hw]
  constructor
  · intro outside
    rw [illegalWord_outside_fault s.countCommand outside]
  · intro inFault
    rw [illegalWord_in_fault s.countCommand inFault]
    rfl

end Sys2Proof.Encoding

/-! PROOFS. One shift-accumulate step and the packing of a whole row of pixels (40_packer.md R56, R58). -/
namespace Sys2Proof.Machine

/-! ### One step of sh, as a word and as a number (R56) -/

/-- Bit 7 of the accumulator is cut off, and the new bit is put below the seven that stay. -/
theorem sh_eq_concat (a : Byte) (b : Bool) : sh a b = (a.setWidth 7).concat b := by
  refine BitVec.eq_of_getLsbD_eq fun k hk => ?_
  cases k with
  | zero => rw [sh_getLsbD_zero, BitVec.getLsbD_concat_zero]
  | succ k => simp [sh_getLsbD_succ a b hk, Nat.lt_of_succ_lt_succ hk]

theorem sh_extractLsb'_one (a : Byte) (b : Bool) : (sh a b).extractLsb' 1 7 = a.extractLsb' 0 7 := by
  refine BitVec.eq_of_getLsbD_eq fun k hk => ?_
  have moved : (sh a b).getLsbD (1 + k) = a.getLsbD k := by
    rw [Nat.add_comm, sh_getLsbD_succ a b (Nat.succ_lt_succ hk)]
  simp [hk, moved]

theorem sh_toNat (a : Byte) (b : Bool) : (sh a b).toNat = (2 * a.toNat + b.toNat) % 256 := by
  have hb : b.toNat < 2 := b.toNat_lt
  rw [sh_eq_concat, BitVec.toNat_concat, BitVec.toNat_setWidth]
  omega

/-- Settles O14: the fields and the integer by their lemmas. -/
theorem shiftAccumulate : Obligations.ShiftAccumulate := by
  unfold Obligations.ShiftAccumulate
  exact fun a b => ⟨sh_extractLsb'_one a b, sh_getLsbD_zero a b, sh_toNat a b⟩

/-! ### The packed bytes of a row, group by group (R58) -/

theorem exists_eq_group_cons {P : List Byte} (hP : 8 ≤ P.length) :
    ∃ p0 p1 p2 p3 p4 p5 p6 p7 rest, P = p0 :: p1 :: p2 :: p3 :: p4 :: p5 :: p6 :: p7 :: rest := by
  refine ⟨P[0], P[1], P[2], P[3], P[4], P[5], P[6], P[7], P.drop 8, ?_⟩
  simp only [List.getElem_cons_drop, List.drop_zero]

/-- Induction over the groups of a row of pixels: a rest of fewer than 8 pixels, or a whole group before a row. -/
theorem groups_induction {motive : List Byte → Prop} (short : ∀ P : List Byte, P.length < 8 → motive P)
    (group : ∀ p0 p1 p2 p3 p4 p5 p6 p7 rest, motive rest →
      motive (p0 :: p1 :: p2 :: p3 :: p4 :: p5 :: p6 :: p7 :: rest)) (P : List Byte) : motive P := by
  fun_induction packGroups P with
  | case1 p0 p1 p2 p3 p4 p5 p6 p7 rest ih => exact group p0 p1 p2 p3 p4 p5 p6 p7 rest ih
  | case2 P noGroup =>
    refine short P (Nat.lt_of_not_le fun hP => ?_)
    obtain ⟨p0, p1, p2, p3, p4, p5, p6, p7, rest, rfl⟩ := exists_eq_group_cons hP
    exact noGroup p0 p1 p2 p3 p4 p5 p6 p7 rest rfl

theorem packGroups_of_length_lt {P : List Byte} (hP : P.length < 8) : packGroups P = [] := by
  unfold packGroups
  split
  · simp only [List.length_cons] at hP
    omega
  · rfl

@[simp] theorem packGroups_length (P : List Byte) : (packGroups P).length = P.length / 8 := by
  induction P using groups_induction with
  | short P hP => rw [packGroups_of_length_lt hP, List.length_nil, Nat.div_eq_of_lt hP]
  | group p0 p1 p2 p3 p4 p5 p6 p7 rest ih =>
    simp only [packGroups, List.length_cons, ih]
    omega

/-- Byte k is the packed byte of pixels 8k to 8k + 7: each whole group before them takes its own byte off the front. -/
theorem packGroups_getElem? (P : List Byte) {k : Nat} (hk : k < P.length / 8) :
    (packGroups P)[k]? = some (pack8 (P.getD (8 * k) 0) (P.getD (8 * k + 1) 0) (P.getD (8 * k + 2) 0)
      (P.getD (8 * k + 3) 0) (P.getD (8 * k + 4) 0) (P.getD (8 * k + 5) 0) (P.getD (8 * k + 6) 0)
      (P.getD (8 * k + 7) 0)) := by
  induction P using groups_induction generalizing k with
  | short P hP => omega
  | group p0 p1 p2 p3 p4 p5 p6 p7 rest ih =>
    cases k with
    | zero => rfl
    | succ k =>
      simp only [List.length_cons] at hk
      exact ih (by omega)

/-! ### The length rule of pack (R58) -/

theorem pack_of_length_mod_eq_zero {P : List Byte} (hP : P.length % 8 = 0) : pack P = .ok (packGroups P) :=
  if_pos hP

theorem pack_eq_error_iff (P : List Byte) : pack P = .error .invalidInputLength ↔ P.length % 8 ≠ 0 := by
  constructor
  · intro h hP
    rw [pack_of_length_mod_eq_zero hP] at h
    cases h
  · exact fun hP => if_neg hP

/-- Settles O18: rejected on the length alone, and otherwise the packed groups, whose length and bytes have their lemmas. -/
theorem packRule : Obligations.PackRule := by
  unfold Obligations.PackRule
  exact fun P => ⟨pack_eq_error_iff P, fun hP =>
    ⟨packGroups P, pack_of_length_mod_eq_zero hP, packGroups_length P, fun _ hk => packGroups_getElem? P hk⟩⟩

end Sys2Proof.Machine

/-! PROOFS. The encoder's steps as whole states and the reference decoder on rows of tokens (41_rle.md R65, R66, R72). -/
namespace Sys2Proof.Machine

/-! ### The reference decoder (R72) -/

/-- A well-formed token at the head of a stream is decoded to the bytes it stands for, and the rest follows. -/
theorem dec_token_append {t : Token} (ht : t.wellFormed = true) (S : List Byte) :
    dec (t.bytes ++ S) = (dec S).map (t.expand ++ ·) := by
  cases t with
  | lit b => exact dec_cons_literal b S (bne_iff_ne.mp ht)
  | zrun n => exact dec_cons_run n S (bne_iff_ne.mp ht)

/-- The decoder works token by token: a well-formed row never fails, so only what follows it can bring an error. -/
theorem dec_tokenBytes_append {ts : List Token} (hts : ts.all Token.wellFormed = true) (S : List Byte) :
    dec (tokenBytes ts ++ S) = (dec S).map (ts.flatMap Token.expand ++ ·) := by
  induction ts with
  | nil => exact (congrFun Except.map_id (dec S)).symm
  | cons t ts ih =>
    rw [List.all_cons, Bool.and_eq_true] at hts
    obtain ⟨ht, hts⟩ := hts
    calc dec (tokenBytes (t :: ts) ++ S)
        = dec (t.bytes ++ (tokenBytes ts ++ S)) := by simp only [tokenBytes, List.flatMap_cons, List.append_assoc]
      _ = ((dec S).map (ts.flatMap Token.expand ++ ·)).map (t.expand ++ ·) := by rw [dec_token_append ht, ih hts]
      _ = (dec S).map ((t :: ts).flatMap Token.expand ++ ·) := by
        cases dec S with
        | error e => rfl
        | ok D => simp only [Except.map, List.flatMap_cons, List.append_assoc]

/-- Settles O29: a well-formed row before the empty stream, before a lone marker and before a count byte of zero. -/
theorem decoderRule : Obligations.DecoderRule := by
  unfold Obligations.DecoderRule
  refine ⟨fun ts hts => ?_, fun ts hts => ?_, fun ts T hts => ?_⟩
  · have expanded := dec_tokenBytes_append hts []
    rwa [List.append_nil, dec_nil, Except.map, List.append_nil] at expanded
  · rw [dec_tokenBytes_append hts, dec_truncated, Except.map]
  · rw [dec_tokenBytes_append hts, dec_zero_count, Except.map]

/-! ### The encoder's steps (R65, R66) -/

/-- With a run open, counting on writes CNT alone. -/
theorem setRle_true_of_run {s : State} (hr : s.run = true) (c : Byte) : s.setRle true c = { s with cnt := c } := by
  rw [← hr]; rfl

/-- Two bytes emitted one after the other are one row of two BYTE words. -/
theorem emit_emit (a b : Byte) (s : State) : (s.emit a).emit b = { s with out := s.out ++ [.byte a, .byte b] } := by
  simp [State.emit, State.outPush]

/-- Settles O21: the five cases by their lemmas, with the register and stream writes put together in cases C and E. -/
theorem rlStepTable : Obligations.RlStepTable := by
  unfold Obligations.RlStepTable
  refine fun b s => ⟨fun hr hb => ?_, fun hr hb => ?_, fun hr hb hc => ?_, fun hr hb hc => ?_, fun hr hb => ?_⟩
  · exact rlStep_literal b s hr hb
  · rw [hb]; exact rlStep_opens s hr
  · rw [hb, rlStep_counts s hr hc, setRle_true_of_run hr]
  · rw [hb]; exact rlStep_saturates s hr hc.ge
  · rw [rlStep_closes b s hr hb, emit_emit]; rfl

/-- Settles O22: an open run by `rlFlush_open`, whose writes are these, and no run by `rlFlush_closed`. -/
theorem rlFlushRule : Obligations.RlFlushRule := by
  unfold Obligations.RlFlushRule
  exact fun s => ⟨rlFlush_open s, rlFlush_closed s⟩

end Sys2Proof.Machine

/-! PROOFS. What DATA, END, CFG and CLR do in each PHASE (42_commands.md R75 to R83). -/
namespace Sys2Proof.Machine

/-! ### DATA outside FAULT, by the two bits of MODE (R75 to R79) -/

theorem dataEffect_byte (d : Byte) (s : State) (h : bypPack s.mode = true) :
    dataEffect d s = rleStage d { s with phase := .busy } := by
  rw [dataEffect, packStage_byte d (s.setPhase .busy) h]; rfl

theorem dataEffect_inner (d : Byte) (s : State) (h : bypPack s.mode = false) (hk : s.bitcnt ≠ 7#3) :
    dataEffect d s = { s with phase := .busy, acc := sh s.acc (thr d), bitcnt := s.bitcnt + 1#3 } := by
  rw [dataEffect, packStage_pixel d (s.setPhase .busy) h, pkStep_inner d (s.setPhase .busy) hk]; rfl

theorem dataEffect_last (d : Byte) (s : State) (h : bypPack s.mode = false) (hk : s.bitcnt = 7#3) :
    dataEffect d s = rleStage (sh s.acc (thr d)) { s with phase := .busy, acc := 0x00#8, bitcnt := 0#3 } := by
  rw [dataEffect, packStage_pixel d (s.setPhase .busy) h, pkStep_last d (s.setPhase .busy) hk]; rfl

/-- Settles O31: the first stage by MODE[0] and BITCNT, the second stage by MODE[1]. -/
theorem dataExecutes : Obligations.DataExecutes := by
  unfold Obligations.DataExecutes
  intro d s outside
  rw [show exec (.data d) s = .next (dataEffect d s) from execData_busy s d outside]
  refine ⟨fun hm => ?_, fun hm => ?_, fun hm => ?_, fun hm => ?_⟩
  · rw [dataEffect_byte d s (by rw [hm]; rfl), rleStage_raw d _ (by rw [hm]; rfl)]; rfl
  · split
    case isTrue last =>
      rw [dataEffect_last d s (by rw [hm]; rfl) last, rleStage_raw _ _ (by rw [hm]; rfl)]; rfl
    case isFalse inner => rw [dataEffect_inner d s (by rw [hm]; rfl) inner]
  · rw [dataEffect_byte d s (by rw [hm]; rfl), rleStage_encoded d _ (by rw [hm]; rfl)]
  · split
    case isTrue last =>
      rw [dataEffect_last d s (by rw [hm]; rfl) last, rleStage_encoded _ _ (by rw [hm]; rfl)]
    case isFalse inner => rw [dataEffect_inner d s (by rw [hm]; rfl) inner]

/-! ### END (R80) -/

theorem lengthBad_eq_true_iff (s : State) : lengthBad s = true ↔ s.mode.getLsbD 0 = false ∧ s.bitcnt ≠ 0#3 := by
  simp [lengthBad, bypPack]

theorem lengthBad_eq_false_iff (s : State) : lengthBad s = false ↔ s.mode.getLsbD 0 = true ∨ s.bitcnt = 0#3 := by
  simp [lengthBad, bypPack, or_iff_not_imp_left]

/-- A frame whose length END accepts leaves nothing in the packer: ACC is below 2^BITCNT, and a bypassed packer is empty. -/
theorem State.Inv.packer_clear {s : State} (inv : s.Inv) (h : lengthBad s = false) :
    s.acc = 0x00#8 ∧ s.bitcnt = 0#3 := by
  rcases (lengthBad_eq_false_iff s).mp h with bypassed | empty
  · exact inv.packer_bypassed bypassed
  · have bound := inv.acc_bound
    rw [empty] at bound
    exact ⟨BitVec.eq_of_toNat_eq (Nat.lt_one_iff.mp bound), empty⟩

/-- A successful END leaves nothing in the encoder: an open run is flushed, a bypassed or closed one is empty. -/
theorem State.Inv.closeFrame_rle_clear {s : State} (inv : s.Inv) :
    (closeFrame s).run = false ∧ (closeFrame s).cnt = 0x00#8 := by
  rcases closeFrame_cases s with ⟨_, _, closed⟩ | ⟨noRun, closed⟩
  · rw [closed]; exact ⟨rfl, rfl⟩
  · rw [closed]
    rcases noRun with bypassed | hr
    · exact inv.rle_bypassed bypassed
    · exact ⟨hr, inv.closed_cnt hr⟩

@[simp] theorem closeFrame_phase (s : State) : (closeFrame s).phase = .idle := rfl

theorem closeFrame_packer (s : State) : (closeFrame s).acc = s.acc ∧ (closeFrame s).bitcnt = s.bitcnt := by
  rcases closeFrame_cases s with ⟨_, _, closed⟩ | ⟨_, closed⟩ <;> rw [closed] <;> exact ⟨rfl, rfl⟩

/-- Settles O32: the length check decides between fault entry and `closeFrame`, whose two cases are the flush's. -/
theorem endExecutes : Obligations.EndExecutes := by
  unfold Obligations.EndExecutes
  refine fun s outside => ⟨fun hm hk => ?_, fun hlen => ?_⟩
  · exact execEnd_bad s outside ((lengthBad_eq_true_iff s).mpr ⟨hm, hk⟩)
  · have good := (lengthBad_eq_false_iff s).mpr hlen
    have closes : exec .endFrame s = .next (closeFrame s) := execEnd_closes s outside good
    refine ⟨fun hm hr => ?_, fun noRun => ?_, fun inv => ?_⟩
    · rw [closes, closeFrame_flushing s hm hr]
    · rw [closes, closeFrame_plain s noRun]
    · obtain ⟨acc_kept, bitcnt_kept⟩ := closeFrame_packer s
      obtain ⟨acc_clear, bitcnt_clear⟩ := inv.packer_clear good
      exact ⟨closeFrame s, closes, closeFrame_phase s, acc_kept.trans acc_clear, bitcnt_kept.trans bitcnt_clear,
        inv.closeFrame_rle_clear⟩

/-! ### CFG and CLR (R81, R82) -/

/-- Settles O33: one lemma per PHASE. -/
theorem cfgExecutes : Obligations.CfgExecutes := by
  unfold Obligations.CfgExecutes
  exact fun m s => ⟨execCfg_idle s m, execCfg_busy s m, execCfg_fault s m⟩

/-- Between frames the registers that CLR clears are clear already (R24 item 1). -/
theorem State.Inv.clearFrame_idle {s : State} (inv : s.Inv) (h : s.phase = .idle) : s.clearFrame = s := by
  obtain ⟨hacc, hbitcnt, hrun, hcnt, hcause⟩ := inv.idle_clear h
  rw [clearFrame_eq]; cases s; simp_all

/-- Settles O34: the writes of `State.clearFrame`, after the ABORT word in BUSY. -/
theorem clrExecutes : Obligations.ClrExecutes := by
  unfold Obligations.ClrExecutes
  refine fun s => ⟨execClr_busy s, execClr_closed s, fun idle inv => ?_⟩
  have closed : exec .clr s = .next s.clearFrame := execClr_closed s (by rw [idle]; decide)
  rw [closed, inv.clearFrame_idle idle]

/-! ### FAULT (R83) -/

theorem exec_fault {i : Instr} (hi : i ≠ .clr) {s : State} (h : s.phase = .fault) : exec i s = .next s := by
  cases i with
  | data d => exact execData_fault s d h
  | endFrame => exact execEnd_fault s h
  | cfg m => exact execCfg_fault s m h
  | clr => exact absurd rfl hi

/-- In FAULT a word that is not CLR's, legal or not, is counted and has no other effect. -/
theorem accept_fault {w : CmdWord} (hw : decode w ≠ .ok .clr) {s : State} (h : s.phase = .fault) :
    accept w s = .next s.countCommand := by
  cases hd : decode w with
  | error r => rw [accept_illegal s w r hd, illegalWord_in_fault s.countCommand h]
  | ok i =>
    rw [accept_command s w i hd]
    exact exec_fault (fun hi => hw (by rw [hd, hi])) h

theorem decode_ne_clr {w : CmdWord} (hw : w ≠ 0x300#10) : decode w ≠ .ok .clr :=
  fun hd => hw ((decode_eq_ok_iff w .clr).mp hd)

theorem step_word {s : State} {w : CmdWord} {rest : List HostInput} (h : s.inp = .word w :: rest) :
    step s = accept w { s with inp := rest } := by
  simp only [step, takeInput, h]

/-- Settles O35: a word that is not 0x300 does not decode to CLR, and then `accept_fault` is the whole step. -/
theorem discardInFault : Obligations.DiscardInFault := by
  unfold Obligations.DiscardInFault
  intro s w rest inFault hinp hw
  have accepted := accept_fault (s := { s with inp := rest }) (decode_ne_clr hw) inFault
  rw [step_word hinp, accepted]
  rfl

end Sys2Proof.Machine

/-! PROOFS. The dispatch of an accepted word and the phase transition table (42_commands.md R74, R84). -/
namespace Sys2Proof.Machine

/-! ### The lines of the dispatch (R74) -/

theorem cfgReserved_eq_data (w : CmdWord) : (CmdWord.data w).extractLsb' 2 6 = CmdWord.cfgReserved w :=
  BitVec.extractLsb'_extractLsb'_of_le (by decide)

theorem cfgMode_eq_data (w : CmdWord) : (CmdWord.data w).extractLsb' 0 2 = CmdWord.cfgMode w :=
  BitVec.extractLsb'_extractLsb'_of_le (by decide)

@[simp] theorem dataEffect_cmdidx (d : Byte) (s : State) : (dataEffect d s).cmdidx = s.cmdidx := by
  obtain ⟨_, _, _, _, _, _, effect⟩ := dataEffect_frame d s
  rw [effect]

@[simp] theorem dataEffect_inp (d : Byte) (s : State) : (dataEffect d s).inp = s.inp := by
  obtain ⟨_, _, _, _, _, _, effect⟩ := dataEffect_frame d s
  rw [effect]

@[simp] theorem closeFrame_cmdidx (s : State) : (closeFrame s).cmdidx = s.cmdidx := by
  rcases closeFrame_cases s with ⟨_, _, closed⟩ | ⟨_, closed⟩ <;> rw [closed]

@[simp] theorem closeFrame_inp (s : State) : (closeFrame s).inp = s.inp := by
  rcases closeFrame_cases s with ⟨_, _, closed⟩ | ⟨_, closed⟩ <;> rw [closed]

/-- CMDIDX counts the word, and nothing but the reading of the word consumes input. -/
theorem accept_cmdidx_inp {w : CmdWord} {s t : State} (h : accept w s = .next t) :
    t.cmdidx = s.cmdidx + 1 ∧ t.inp = s.inp := by
  rcases accept_cases s w t h with ⟨_, _, rfl⟩ | ⟨_, _, rfl⟩ | ⟨_, _, rfl⟩ | ⟨_, d, _, rfl⟩ | ⟨_, _, _, rfl⟩ |
    ⟨_, _, _, rfl⟩ | ⟨_, m, _, rfl⟩ | ⟨_, _, rfl⟩ | ⟨_, _, rfl⟩ | ⟨_, _, rfl⟩ <;> simp

/-- Lines (2) to (7), outside FAULT: one case per leaf of the decoder. -/
theorem accept_outside_fault (w : CmdWord) {s : State} (h : s.phase ≠ .fault) :
    accept w s =
      if (CmdWord.op w = 0b01#2 ∧ CmdWord.data w ≠ 0x00#8) ∨
          (CmdWord.op w = 0b10#2 ∧ (CmdWord.data w).extractLsb' 2 6 ≠ 0#6) ∨
          (CmdWord.op w = 0b11#2 ∧ CmdWord.data w ≠ 0x00#8) then
        .next (s.countCommand.raise .illegalCommand)
      else if CmdWord.op w = 0b00#2 then execData (CmdWord.data w) s.countCommand
      else if CmdWord.op w = 0b01#2 then execEnd s.countCommand
      else if CmdWord.op w = 0b10#2 then execCfg ((CmdWord.data w).extractLsb' 0 2) s.countCommand
      else execClr s.countCommand := by
  have illegal := illegalWord_outside_fault s.countCommand h
  rw [accept, cfgReserved_eq_data, cfgMode_eq_data]
  fun_cases decode w with
  | case1 op => simp [op, exec]
  | case2 _ op data => simp [op, data, exec]
  | case3 _ op data => simp [op, data, illegal]
  | case4 _ _ op reserved => simp [op, reserved, exec]
  | case5 _ _ op reserved => simp [op, reserved, illegal]
  | case6 notData notEnd notCfg data => simp [notData, notEnd, notCfg, data, exec]
  | case7 notData notEnd notCfg data =>
    have op : CmdWord.op w = 0b11#2 := by bv_omega
    simp [op, data, illegal]

/-- Settles O41: every word completes; line (1) is `accept_fault` and the rest `accept_outside_fault`. -/
theorem dispatchLines : Obligations.DispatchLines := by
  unfold Obligations.DispatchLines
  intro s w
  refine ⟨?_, ?_⟩
  · obtain ⟨t, accepted⟩ := accept_completes s w
    exact ⟨t, accepted, accept_cmdidx_inp accepted⟩
  · split
    case isTrue inFault =>
      split
      case isTrue clr => rw [clr]; exact accept_command s _ .clr rfl
      case isFalse other => exact accept_fault (decode_ne_clr other) inFault
    case isFalse outside => exact accept_outside_fault w outside

/-! ### The phase transition table (R84) -/

/-- An output word that is no data: EOF or ABORT (R46). -/
def OutWord.sideband : OutWord → Bool
  | .byte _ => false
  | _ => true

theorem pushed_of_out {s t : State} {ws : List OutWord} (h : t.out = s.out ++ ws) : pushed s t = ws := by
  rw [pushed, h, List.drop_left]

/-- A row of the table, from the words that the step pushed. -/
theorem phase_and_sideband {s t : State} {p : Phase} (ws : List OutWord) (hp : t.phase = p) (hout : t.out = s.out ++ ws) :
    t.phase = p ∧ (pushed s t).filter OutWord.sideband = ws.filter OutWord.sideband :=
  ⟨hp, by rw [pushed_of_out hout]⟩

/-- A row of the table in which the step pushed nothing. -/
theorem phase_and_no_sideband {s t : State} {p : Phase} (hp : t.phase = p) (hout : t.out = s.out) :
    t.phase = p ∧ (pushed s t).filter OutWord.sideband = [] :=
  phase_and_sideband [] hp (by rw [hout, List.append_nil])

theorem sideband_bytes (bs : List Byte) : (bs.map OutWord.byte).filter OutWord.sideband = [] := by
  simp [OutWord.sideband]

theorem dataEffect_row (d : Byte) (s : State) :
    (dataEffect d s).phase = .busy ∧ (pushed s (dataEffect d s)).filter OutWord.sideband = [] := by
  obtain ⟨_, _, _, _, bs, _, effect⟩ := dataEffect_frame d s
  rw [← sideband_bytes bs, effect]
  exact phase_and_sideband (bs.map OutWord.byte) rfl rfl

theorem closeFrame_row (s : State) :
    (closeFrame s).phase = .idle ∧ (pushed s (closeFrame s)).filter OutWord.sideband = [.eof] := by
  rcases closeFrame_cases s with ⟨_, _, closed⟩ | ⟨_, closed⟩ <;> rw [closed]
  · exact phase_and_sideband [.byte s.cnt, .eof] rfl rfl
  · exact phase_and_sideband [.eof] rfl rfl

theorem next_of_decode {w : CmdWord} {i : Instr} {s t u : State} (h : accept w s = .next t) (hd : decode w = .ok i)
    (hx : exec i s.countCommand = .next u) : t = u := by
  rw [accept_command s w i hd, hx] at h
  cases h; rfl

/-- Settles O39: the rows of the table in order. In IDLE the packer is empty (R24 item 1), so END cannot fault there. -/
theorem phaseTable : Obligations.PhaseTable := by
  unfold Obligations.PhaseTable
  intro w s t inv h
  dsimp only
  split
  case h_1 inFault clr =>
    obtain rfl := next_of_decode h clr (execClr_closed s.countCommand (by simp [inFault]))
    exact phase_and_no_sideband rfl rfl
  case h_2 inFault notClr =>
    rw [accept_fault notClr inFault] at h
    cases h
    exact phase_and_no_sideband inFault rfl
  case h_3 r illegal outside =>
    rw [accept_illegal s w r illegal, illegalWord_outside_fault s.countCommand outside] at h
    cases h
    exact phase_and_sideband [.abort _] rfl rfl
  case h_4 d data outside =>
    obtain rfl := next_of_decode h data (execData_busy s.countCommand d outside)
    exact dataEffect_row d s.countCommand
  case h_5 idle endFrame =>
    obtain ⟨_, empty, _⟩ := inv.idle_clear idle
    have good := (lengthBad_eq_false_iff s.countCommand).mpr (.inr empty)
    obtain rfl := next_of_decode h endFrame (execEnd_closes s.countCommand (by simp [idle]) good)
    exact closeFrame_row s.countCommand
  case h_6 busy endFrame =>
    have outside : s.countCommand.phase ≠ .fault := by simp [busy]
    split
    case isTrue bad =>
      have bad := (lengthBad_eq_true_iff s.countCommand).mpr bad
      obtain rfl := next_of_decode h endFrame (execEnd_bad s.countCommand outside bad)
      exact phase_and_sideband [.abort _] rfl rfl
    case isFalse good =>
      have good := Bool.eq_false_iff.mpr (mt (lengthBad_eq_true_iff s.countCommand).mp good)
      obtain rfl := next_of_decode h endFrame (execEnd_closes s.countCommand outside good)
      exact closeFrame_row s.countCommand
  case h_7 m idle cfg =>
    obtain rfl := next_of_decode h cfg (execCfg_idle s.countCommand m idle)
    exact phase_and_no_sideband idle rfl
  case h_8 m busy cfg =>
    obtain rfl := next_of_decode h cfg (execCfg_busy s.countCommand m busy)
    exact phase_and_sideband [.abort _] rfl rfl
  case h_9 idle clr =>
    obtain rfl := next_of_decode h clr (execClr_closed s.countCommand (by simp [idle]))
    exact phase_and_no_sideband rfl rfl
  case h_10 busy clr =>
    obtain rfl := next_of_decode h clr (execClr_busy s.countCommand busy)
    exact phase_and_sideband [.abort _] rfl rfl

end Sys2Proof.Machine

/-! PROOFS. Which words raise which exception, and how FAULT is left (60_exceptions.md R91 to R94, R98, R100). -/
namespace Sys2Proof.Machine

/-! ### Fault entry (R92 to R94, R98) -/

/-- The condition under which a word accepted outside FAULT raises the exception. -/
def Raises (w : CmdWord) (s : State) : Exc → Prop
  | .illegalCommand => w.legal = false
  | .configWhileBusy => (∃ m, decode w = .ok (.cfg m)) ∧ s.phase = .busy
  | .invalidInputLength => w = 0x100#10 ∧ s.mode.getLsbD 0 = false ∧ s.bitcnt ≠ 0#3

theorem accept_of_raises {w : CmdWord} {s : State} {e : Exc} (outside : s.phase ≠ .fault) (h : Raises w s e) :
    accept w s = .next (s.countCommand.raise e) := by
  cases e with
  | illegalCommand =>
    obtain ⟨r, illegal⟩ := (decode_error_iff_not_legal w).mpr h
    rw [accept_illegal s w r illegal, illegalWord_outside_fault s.countCommand outside]
  | configWhileBusy =>
    obtain ⟨⟨m, cfg⟩, busy⟩ := h
    rw [accept_command s w _ cfg]
    exact execCfg_busy s.countCommand m busy
  | invalidInputLength =>
    obtain ⟨endWord, partialGroup⟩ := h
    rw [accept_command s w _ ((decode_eq_ok_iff w .endFrame).mpr endWord)]
    exact execEnd_bad s.countCommand outside ((lengthBad_eq_true_iff s.countCommand).mpr partialGroup)

/-- A word that takes the block into FAULT raises one of the exceptions, and the step is its fault entry. -/
theorem exists_raises_of_fault {w : CmdWord} {s t : State} (outside : s.phase ≠ .fault) (h : accept w s = .next t)
    (inFault : t.phase = .fault) : ∃ e, Raises w s e ∧ t = s.countCommand.raise e := by
  rcases accept_cases s w t h with ⟨was, _⟩ | ⟨was, _⟩ | ⟨_, illegal, entry⟩ | ⟨_, d, _, rfl⟩ | ⟨_, endFrame, bad, entry⟩ |
    ⟨_, _, _, rfl⟩ | ⟨idle, m, _, rfl⟩ | ⟨busy, cfg, entry⟩ | ⟨_, _, rfl⟩ | ⟨_, _, rfl⟩
  · exact absurd was outside
  · exact absurd was outside
  · exact ⟨.illegalCommand, (decode_error_iff_not_legal w).mp illegal, entry⟩
  · simp [(dataEffect_row d s.countCommand).1] at inFault
  · exact ⟨.invalidInputLength,
      ⟨(decode_eq_ok_iff w .endFrame).mp endFrame, (lengthBad_eq_true_iff s).mp bad⟩, entry⟩
  · simp at inFault
  · simp [idle] at inFault
  · exact ⟨.configWhileBusy, ⟨cfg, busy⟩, entry⟩
  · simp at inFault
  · simp at inFault

theorem cause_and_fault_iff_raises {w : CmdWord} {s t : State} (outside : s.phase ≠ .fault) (h : accept w s = .next t)
    (e : Exc) : t.cause = .exc e ∧ t.phase = .fault ↔ Raises w s e := by
  constructor
  · rintro ⟨cause, inFault⟩
    obtain ⟨e', raises, rfl⟩ := exists_raises_of_fault outside h inFault
    obtain rfl : e' = e := by simpa using cause
    exact raises
  · intro raises
    rw [accept_of_raises outside raises] at h
    cases h
    exact ⟨rfl, rfl⟩

/-! ### A word accepted in FAULT (R83, R100) -/

theorem accept_clr_in_fault {s : State} (h : s.phase = .fault) :
    accept 0x300#10 s = .next s.countCommand.clearFrame := by
  rw [accept_command s _ .clr rfl]
  exact execClr_closed s.countCommand (by simp [h])

theorem clr_legal : CmdWord.legal 0x300#10 = true := (legal_iff_exists_decode _).mpr ⟨.clr, rfl⟩

/-- Settles O38: outside FAULT the three conditions are `Raises`; in FAULT a word is CLR's, which is legal, or is
discarded. -/
theorem whichWordsFault : Obligations.WhichWordsFault := by
  unfold Obligations.WhichWordsFault
  refine ⟨⟨rfl, rfl, rfl, rfl, rfl, fun _ => rfl⟩, fun w s t outside h => ?_, fun w s t inFault h => ?_⟩
  · have raises_iff := cause_and_fault_iff_raises outside h
    refine ⟨raises_iff .illegalCommand, raises_iff .configWhileBusy, raises_iff .invalidInputLength, fun inFault => ?_⟩
    obtain ⟨e, _, entry⟩ := exists_raises_of_fault outside h inFault
    exact ⟨e, entry⟩
  · by_cases hw : w = 0x300#10
    · subst hw
      rw [accept_clr_in_fault inFault] at h
      cases h
      exact ⟨rfl, fun illegal => by simp [clr_legal] at illegal⟩
    · rw [accept_fault (decode_ne_clr hw) inFault] at h
      cases h
      exact ⟨rfl, fun _ => rfl⟩

/-! ### Leaving FAULT (R100) -/

theorem clockEdge_reset (P : Config.Params) {i : PortIn} (p : PortState) (h : i.rst = true) :
    clockEdge P i p = .next PortState.reset := by
  simp [clockEdge, h, PortState.resetEdge]

/-- Settles O36: 0x300 is `accept_clr_in_fault`, another word is discarded (`Obligations.DiscardInFault`), and reset is an
edge at the ports. -/
theorem onlyClrLeavesFault : Obligations.OnlyClrLeavesFault := by
  unfold Obligations.OnlyClrLeavesFault
  intro s t w rest inFault hinp h
  have reset_leaves (P : Config.Params) (i : PortIn) (p : PortState) (hrst : i.rst = true) :
      ∃ q, clockEdge P i p = .next q ∧ q.core.phase = .idle ∧ q.core.mode = 0b00#2 :=
    ⟨PortState.reset, clockEdge_reset P p hrst, rfl, rfl⟩
  by_cases hw : w = 0x300#10
  · subst hw
    rw [step_word hinp, accept_clr_in_fault (s := { s with inp := rest }) inFault] at h
    cases h
    exact ⟨by simp, fun _ => rfl, fun other => absurd rfl other, reset_leaves⟩
  · rw [discardInFault s w rest inFault hinp hw] at h
    cases h
    exact ⟨by simp [inFault, hw], fun clr => absurd clr hw, fun _ => ⟨rfl, rfl⟩, reset_leaves⟩

end Sys2Proof.Machine

/-! PROOFS. The invariants of one state: they hold after reset, every step keeps them (10_state.md R24), and every state
reachable by command words has them. -/
namespace Sys2Proof.Machine

/-! ### The seven registers

R24 speaks of the registers alone, so a state that differs in the bookkeeping meets it too. -/

/-- Two states with the same registers (R9). -/
structure SameRegisters (s t : State) : Prop where
  mode : s.mode = t.mode
  phase : s.phase = t.phase
  cause : s.cause = t.cause
  acc : s.acc = t.acc
  bitcnt : s.bitcnt = t.bitcnt
  run : s.run = t.run
  cnt : s.cnt = t.cnt

theorem SameRegisters.inv {s t : State} (same : SameRegisters s t) (inv : s.Inv) : t.Inv := by
  obtain ⟨hmode, hphase, hcause, hacc, hbitcnt, hrun, hcnt⟩ := same
  obtain ⟨idle_clear, fault_iff_cause, closed_cnt, open_cnt, packer_bypassed, acc_bound, rle_bypassed⟩ := inv
  constructor <;> simpa only [← hmode, ← hphase, ← hcause, ← hacc, ← hbitcnt, ← hrun, ← hcnt]

theorem SameRegisters.status {s t : State} (same : SameRegisters s t) : s.status = t.status := by
  obtain ⟨hmode, hphase, hcause, hacc, hbitcnt, hrun, hcnt⟩ := same
  simp only [State.status, hmode, hphase, hcause, hacc, hbitcnt, hrun, hcnt]

theorem State.Inv.countCommand {s : State} (inv : s.Inv) : s.countCommand.Inv :=
  SameRegisters.inv (s := s) ⟨rfl, rfl, rfl, rfl, rfl, rfl, rfl⟩ inv

theorem State.Inv.setInput {s : State} (inv : s.Inv) (i : List HostInput) : State.Inv { s with inp := i } :=
  SameRegisters.inv (s := s) ⟨rfl, rfl, rfl, rfl, rfl, rfl, rfl⟩ inv

theorem State.Inv.emit {s : State} (inv : s.Inv) (b : Byte) : (s.emit b).Inv :=
  SameRegisters.inv (s := s) ⟨rfl, rfl, rfl, rfl, rfl, rfl, rfl⟩ inv

/-! ### R24 of each kind of next state -/

/-- Outside FAULT no cause is held (R24 item 2). -/
theorem State.Inv.cause_of_not_fault {s : State} (inv : s.Inv) (outside : s.phase ≠ .fault) : s.cause = .noFault :=
  not_not.mp (mt inv.fault_iff_cause.mpr outside)

/-- Between frames, with every data register 0, R24 holds whatever MODE is. -/
theorem State.Inv.of_idle_clear {s : State} (idle : s.phase = .idle) (cause : s.cause = .noFault) (acc : s.acc = 0x00#8)
    (bitcnt : s.bitcnt = 0#3) (run : s.run = false) (cnt : s.cnt = 0x00#8) : s.Inv where
  idle_clear _ := ⟨acc, bitcnt, run, cnt, cause⟩
  fault_iff_cause := by simp [idle, cause]
  closed_cnt _ := cnt
  open_cnt := by simp [run]
  packer_bypassed _ := ⟨acc, bitcnt⟩
  acc_bound := by simp [acc, bitcnt]
  rle_bypassed _ := ⟨run, cnt⟩

theorem reset_inv : State.reset.Inv := .of_idle_clear rfl rfl rfl rfl rfl rfl

theorem clearFrame_inv (s : State) : s.clearFrame.Inv := .of_idle_clear rfl rfl rfl rfl rfl rfl

/-- Fault entry freezes the data registers (R99). -/
theorem State.Inv.raise {s : State} (inv : s.Inv) (e : Exc) : (s.raise e).Inv where
  idle_clear idle := by simp at idle
  fault_iff_cause := by simp
  closed_cnt := inv.closed_cnt
  open_cnt := inv.open_cnt
  packer_bypassed := inv.packer_bypassed
  acc_bound := inv.acc_bound
  rle_bypassed := inv.rle_bypassed

theorem State.Inv.setMode {s : State} (inv : s.Inv) (idle : s.phase = .idle) (m : Mode) : (s.setMode m).Inv := by
  obtain ⟨acc, bitcnt, run, cnt, cause⟩ := inv.idle_clear idle
  exact .of_idle_clear idle cause acc bitcnt run cnt

/-- A successful END writes neither MODE nor CAUSE, and records nothing. -/
theorem closeFrame_frame (s : State) :
    (closeFrame s).mode = s.mode ∧ (closeFrame s).cause = s.cause ∧ (closeFrame s).faults = s.faults := by
  rcases closeFrame_cases s with ⟨_, _, closed⟩ | ⟨_, closed⟩ <;> rw [closed] <;> exact ⟨rfl, rfl, rfl⟩

theorem State.Inv.closeFrame {s : State} (inv : s.Inv) (outside : s.phase ≠ .fault) (good : lengthBad s = false) :
    (closeFrame s).Inv := by
  obtain ⟨acc_kept, bitcnt_kept⟩ := closeFrame_packer s
  obtain ⟨acc, bitcnt⟩ := inv.packer_clear good
  obtain ⟨run, cnt⟩ := inv.closeFrame_rle_clear
  obtain ⟨_, cause, _⟩ := closeFrame_frame s
  exact .of_idle_clear (closeFrame_phase s) (cause.trans (inv.cause_of_not_fault outside)) (acc_kept.trans acc)
    (bitcnt_kept.trans bitcnt) run cnt

/-! ### R24 through the two stages of DATA, in an open frame -/

theorem State.Inv.setPhase_busy {s : State} (inv : s.Inv) (outside : s.phase ≠ .fault) : (s.setPhase .busy).Inv where
  idle_clear idle := by simp at idle
  fault_iff_cause := by simp [inv.cause_of_not_fault outside]
  closed_cnt := inv.closed_cnt
  open_cnt := inv.open_cnt
  packer_bypassed := inv.packer_bypassed
  acc_bound := inv.acc_bound
  rle_bypassed := inv.rle_bypassed

theorem State.Inv.setPacker {s : State} (inv : s.Inv) (busy : s.phase = .busy) (packing : bypPack s.mode = false)
    {a : Byte} {k : BitVec 3} (bound : a.toNat < 2 ^ k.toNat) : (s.setPacker a k).Inv where
  idle_clear idle := by simp [busy] at idle
  fault_iff_cause := inv.fault_iff_cause
  closed_cnt := inv.closed_cnt
  open_cnt := inv.open_cnt
  packer_bypassed bypassed := by simp [packing] at bypassed
  acc_bound := bound
  rle_bypassed := inv.rle_bypassed

theorem State.Inv.setRle {s : State} (inv : s.Inv) (busy : s.phase = .busy) (encoding : bypRle s.mode = false)
    {r : Bool} {c : Byte} (closed : r = false → c = 0x00#8) (opened : r = true → 1 ≤ c.toNat ∧ c.toNat ≤ 254) :
    (s.setRle r c).Inv where
  idle_clear idle := by simp [busy] at idle
  fault_iff_cause := inv.fault_iff_cause
  closed_cnt := closed
  open_cnt := opened
  packer_bypassed := inv.packer_bypassed
  acc_bound := inv.acc_bound
  rle_bypassed bypassed := by simp [encoding] at bypassed

/-- One more bit in the accumulator: the bound doubles (R24 item 5). -/
theorem sh_toNat_lt {a : Byte} {k : BitVec 3} (bound : a.toNat < 2 ^ k.toNat) (b : Bool) (hk : k ≠ 7#3) :
    (sh a b).toNat < 2 ^ (k + 1#3).toNat := by
  have hb : b.toNat < 2 := b.toNat_lt
  have next : (k + 1#3).toNat = k.toNat + 1 := by bv_omega
  rw [next, Nat.pow_succ, sh_toNat]
  exact lt_of_le_of_lt (Nat.mod_le _ _) (by omega)

theorem State.Inv.packStage {s : State} (inv : s.Inv) (busy : s.phase = .busy) (d : Byte) :
    (packStage d s).2.Inv := by
  cases packing : bypPack s.mode with
  | true => rwa [packStage_byte d s packing]
  | false =>
    rw [packStage_pixel d s packing]
    by_cases last : s.bitcnt = 7#3
    · rw [pkStep_last d s last]
      exact inv.setPacker busy packing (by decide)
    · rw [pkStep_inner d s last]
      exact inv.setPacker busy packing (sh_toNat_lt inv.acc_bound _ last)

theorem State.Inv.rlStep {s : State} (inv : s.Inv) (busy : s.phase = .busy) (encoding : bypRle s.mode = false)
    (b : Byte) : (rlStep b s).Inv := by
  rcases rlStep_cases b s with ⟨_, _, step⟩ | ⟨_, _, step⟩ | ⟨_, _, below, step⟩ | ⟨_, _, _, step⟩ | ⟨_, _, step⟩ <;>
    rw [step]
  · exact inv.emit b
  · exact (inv.emit 0x00#8).setRle busy encoding (by simp) (by decide)
  · have counted : (s.cnt + 0x01#8).toNat = s.cnt.toNat + 1 := by bv_omega
    exact inv.setRle busy encoding (by simp) (by omega)
  · exact (inv.emit 0xFF#8).setRle busy encoding (by simp) (by simp)
  · exact ((inv.emit s.cnt).emit b).setRle busy encoding (by simp) (by simp)

theorem State.Inv.deliver {s : State} (inv : s.Inv) (busy : s.phase = .busy) (r : Option Byte) : (deliver r s).Inv := by
  cases r with
  | none => exact inv
  | some a =>
    rw [deliver_some]
    cases encoding : bypRle s.mode with
    | true => rw [rleStage_raw a s encoding]; exact inv.emit a
    | false => rw [rleStage_encoded a s encoding]; exact inv.rlStep busy encoding a

/-- The first stage keeps all but ACC and BITCNT. -/
@[simp] theorem packStage_phase (d : Byte) (s : State) : (packStage d s).2.phase = s.phase := by
  obtain ⟨a, k, effect⟩ := packStage_frame d s
  rw [effect, setPacker_phase]

theorem State.Inv.dataEffect {s : State} (inv : s.Inv) (outside : s.phase ≠ .fault) (d : Byte) : (dataEffect d s).Inv :=
  ((inv.setPhase_busy outside).packStage rfl d).deliver (packStage_phase d _) _

/-! ### R24 of every step -/

/-- The next state of an accepted word is one of the kinds above (`accept_cases`). -/
theorem State.Inv.accept {s t : State} (inv : s.Inv) {w : CmdWord} (h : accept w s = .next t) : t.Inv := by
  have counted := inv.countCommand
  rcases accept_cases s w t h with ⟨_, _, rfl⟩ | ⟨_, _, rfl⟩ | ⟨_, _, rfl⟩ | ⟨outside, d, _, rfl⟩ | ⟨_, _, _, rfl⟩ |
    ⟨outside, _, good, rfl⟩ | ⟨idle, m, _, rfl⟩ | ⟨_, _, rfl⟩ | ⟨_, _, rfl⟩ | ⟨_, _, rfl⟩
  · exact clearFrame_inv _
  · exact counted
  · exact counted.raise _
  · exact counted.dataEffect outside d
  · exact counted.raise _
  · exact counted.closeFrame outside good
  · exact counted.setMode idle m
  · exact counted.raise _
  · exact clearFrame_inv _
  · exact clearFrame_inv _

theorem State.Inv.step {s t : State} (inv : s.Inv) (h : step s = .next t) : t.Inv := by
  rcases step_cases s with ⟨_, same⟩ | ⟨w, rest, _, word⟩ | ⟨rest, _, _, refused⟩ | ⟨rest, _, _, resets⟩
  · rw [same] at h; cases h; exact inv
  · rw [word] at h; exact (inv.setInput rest).accept h
  · rw [refused] at h; cases h
  · rw [resets] at h; cases h; exact reset_inv.setInput rest

/-- Settles O3: by what stands at the head of IN, and for a word by the kinds of next state it can have. -/
theorem stepKeepsInv : Obligations.StepKeepsInv := by
  unfold Obligations.StepKeepsInv
  exact fun _ _ inv h => inv.step h

/-! ### The states reachable by command words (R24 items 4 and 7) -/

theorem accept_eq_next_feed (s : State) (w : CmdWord) : accept w s = .next (feed s w) := by
  obtain ⟨t, accepted⟩ := accept_completes s w
  rw [feed, accepted]

/-- A word leaves a frame open only as a DATA command that the block executes: every other next state is in IDLE or FAULT. -/
theorem data_of_accept_busy {w : CmdWord} {s t : State} (h : accept w s = .next t) (busy : t.phase = .busy) :
    s.phase ≠ .fault ∧ ∃ d, decode w = .ok (.data d) ∧ t = dataEffect d s.countCommand := by
  rcases accept_cases s w t h with ⟨_, _, rfl⟩ | ⟨was, _, rfl⟩ | ⟨_, _, rfl⟩ | ⟨outside, data⟩ | ⟨_, _, _, rfl⟩ |
    ⟨_, _, _, rfl⟩ | ⟨idle, m, _, rfl⟩ | ⟨_, _, rfl⟩ | ⟨_, _, rfl⟩ | ⟨_, _, rfl⟩
  case inr.inr.inr.inl => exact ⟨outside, data⟩
  all_goals simp_all

theorem accept_data {w : CmdWord} {d : Byte} {s : State} (outside : s.phase ≠ .fault) (data : decode w = .ok (.data d)) :
    accept w s = .next (dataEffect d s.countCommand) := by
  rw [accept_command s w _ data]
  exact execData_busy s.countCommand d outside

/-- BITCNT counts the pixels of a group, from 7 back to 0. -/
theorem dataEffect_bitcnt (d : Byte) {s : State} (packing : bypPack s.mode = false) :
    (dataEffect d s).bitcnt = s.bitcnt + 1#3 := by
  have deliver_bitcnt (r : Option Byte) (u : State) : (deliver r u).bitcnt = u.bitcnt := by
    obtain ⟨_, _, _, _, effect⟩ := deliver_frame r u
    rw [effect]
  rw [dataEffect, deliver_bitcnt, packStage_pixel d (s.setPhase .busy) packing]
  by_cases last : s.bitcnt = 7#3
  · rw [pkStep_last d (s.setPhase .busy) last, last]; rfl
  · rw [pkStep_inner d (s.setPhase .busy) last]; rfl

@[simp] theorem dataEffect_mode (d : Byte) (s : State) : (dataEffect d s).mode = s.mode := by
  obtain ⟨_, _, _, _, _, _, effect⟩ := dataEffect_frame d s
  rw [effect]

@[simp] theorem dataEffect_phase (d : Byte) (s : State) : (dataEffect d s).phase = .busy := (dataEffect_row d s).1

theorem acceptsData_iff (s : State) (w : CmdWord) :
    acceptsData s w = true ↔ s.phase ≠ .fault ∧ ∃ d, decode w = .ok (.data d) := by
  rw [acceptsData]
  split
  case h_1 d data => simp [data]
  case h_2 other => simpa using fun _ d data => other d data

/-- `n` DATA commands have been accepted in the open frame: none outside a frame, and BITCNT is their number mod 8 in a
packing mode (R24 item 4). -/
structure CountsData (s : State) (n : Nat) : Prop where
  closed : s.phase ≠ .busy → n = 0
  packed : s.phase = .busy → bypPack s.mode = false → s.bitcnt.toNat = n % 8

theorem CountsData.bitcnt_eq {s : State} {n : Nat} (counts : CountsData s n) (inv : s.Inv) (outside : s.phase ≠ .fault)
    (packing : bypPack s.mode = false) : s.bitcnt.toNat = n % 8 := by
  cases phase : s.phase with
  | idle =>
    obtain ⟨_, empty, _⟩ := inv.idle_clear phase
    simp [empty, counts.closed (by simp [phase])]
  | busy => exact counts.packed phase packing
  | fault => exact absurd phase outside

theorem CountsData.feed {s : State} {n : Nat} (counts : CountsData s n) (inv : s.Inv) (w : CmdWord) :
    CountsData (feed s w) (if acceptsData s w then n + 1 else 0) := by
  have accepted := accept_eq_next_feed s w
  by_cases data : acceptsData s w = true
  · rw [if_pos data]
    obtain ⟨outside, d, data⟩ := (acceptsData_iff s w).mp data
    rw [accept_data outside data, Host.Outcome.next.injEq] at accepted
    rw [← accepted]
    refine ⟨fun closed => absurd (dataEffect_phase d _) closed, fun _ packing => ?_⟩
    rw [dataEffect_mode] at packing
    have before := counts.bitcnt_eq inv outside packing
    rw [dataEffect_bitcnt d packing, countCommand_bitcnt, BitVec.toNat_add, before]
    simp
  · rw [if_neg data]
    refine ⟨fun _ => rfl, fun busy => ?_⟩
    obtain ⟨outside, d, word, _⟩ := data_of_accept_busy accepted busy
    exact absurd ((acceptsData_iff s w).mpr ⟨outside, d, word⟩) data

/-- Both parts of R24 along a sequence of words, from any state that has them. -/
theorem feedAll_inv_countsData (ws : List CmdWord) : ∀ (s : State) (n : Nat), s.Inv → CountsData s n →
    (feedAll s ws).Inv ∧ CountsData (feedAll s ws) (frameDataCount s n ws) := by
  induction ws with
  | nil => exact fun s n inv counts => ⟨inv, counts⟩
  | cons w ws ih =>
    exact fun s n inv counts => ih (feed s w) _ (inv.accept (accept_eq_next_feed s w)) (counts.feed inv w)

/-- Only CFG in IDLE writes MODE, and it writes its operand. -/
theorem cfg_of_mode_ne {w : CmdWord} {s t : State} (h : accept w s = .next t) (changed : t.mode ≠ s.mode) :
    s.phase = .idle ∧ ∃ m, decode w = .ok (.cfg m) ∧ t.mode = m := by
  rcases accept_cases s w t h with ⟨_, _, rfl⟩ | ⟨_, _, rfl⟩ | ⟨_, _, rfl⟩ | ⟨_, d, _, rfl⟩ | ⟨_, _, _, rfl⟩ |
    ⟨_, _, _, rfl⟩ | ⟨idle, m, cfg, rfl⟩ | ⟨_, _, rfl⟩ | ⟨_, _, rfl⟩ | ⟨_, _, rfl⟩
  case inr.inr.inr.inr.inr.inr.inl => exact ⟨idle, m, cfg, rfl⟩
  all_goals simp [closeFrame_frame] at changed

/-- No state has the unused code of PHASE, and none a CAUSE above the three exceptions (R16, R17). -/
theorem Phase.code_ne_unused (p : Phase) : p.code ≠ 0b11#2 := by
  cases p <;> decide

theorem Cause.code_le_three (c : Cause) : c.code.toNat ≤ 3 := by
  match c with
  | .noFault => decide
  | .exc .invalidInputLength => decide
  | .exc .illegalCommand => decide
  | .exc .configWhileBusy => decide

theorem Cause.code_ne_zero_iff (c : Cause) : c.code ≠ 0x00#8 ↔ c ≠ .noFault :=
  not_congr (Cause.code_injective.eq_iff (b := .noFault))

/-- Settles O5: R24 and the count of DATA commands go along the words from reset; MODE by `cfg_of_mode_ne`. -/
theorem reachableStates : Obligations.ReachableStates := by
  unfold Obligations.ReachableStates
  intro ws
  obtain ⟨inv, counts⟩ := feedAll_inv_countsData ws State.reset 0 reset_inv ⟨fun _ => rfl, fun busy => by cases busy⟩
  refine ⟨inv, Phase.code_ne_unused _, Cause.code_le_three _, ?_, fun packing busy => counts.packed busy packing, ?_⟩
  · rw [Cause.code_ne_zero_iff]; exact inv.fault_iff_cause
  · intro w changed
    obtain ⟨idle, m, cfg, _⟩ := cfg_of_mode_ne (accept_eq_next_feed _ w) changed
    exact ⟨idle, m, cfg⟩

/-- Settles O45: a step on a word is that word accepted. -/
theorem onlyCfgChangesMode : Obligations.OnlyCfgChangesMode := by
  unfold Obligations.OnlyCfgChangesMode
  intro s t w rest hinp h changed
  rw [step_word hinp] at h
  exact cfg_of_mode_ne (s := { s with inp := rest }) h changed

end Sys2Proof.Machine

/-! PROOFS. OUT, CMDIDX and the fault record beside the registers (10_state.md R13; 20_memory.md R28; 60_exceptions.md R99,
R102): the invariant of the bookkeeping, and what the record says of a whole run. -/
namespace Sys2Proof.Machine

/-! ### The bookkeeping of each kind of next state

Once a word is counted CMDIDX is not 0, so `fresh` speaks of no later state. -/

theorem State.HistInv.countCommand {s : State} (hist : s.HistInv) : s.countCommand.HistInv where
  open_marker := hist.open_marker
  closed_frame := hist.closed_frame
  fault_recorded := hist.fault_recorded
  records_accepted r hr := by
    obtain ⟨lower, upper⟩ := hist.records_accepted r hr
    exact ⟨lower, Nat.le_succ_of_le upper⟩
  fresh zero := by simp at zero

theorem State.HistInv.setInput {s : State} (hist : s.HistInv) (i : List HostInput) :
    State.HistInv { s with inp := i } where
  open_marker := hist.open_marker
  closed_frame := hist.closed_frame
  fault_recorded := hist.fault_recorded
  records_accepted := hist.records_accepted
  fresh := hist.fresh

theorem reset_histInv : State.reset.HistInv where
  open_marker busy := by cases busy
  closed_frame _ b := by simp [State.reset]
  fault_recorded e cause := by cases cause
  records_accepted r hr := by cases hr
  fresh _ := rfl

/-- A state outside an open frame and outside FAULT, whose record names accepted commands: OUT must not end inside a
frame. -/
theorem State.HistInv.of_closed {s : State} (phase : s.phase ≠ .busy) (cause : s.cause = .noFault)
    (closed : ∀ b, s.out.getLast? ≠ some (.byte b)) (records : ∀ r ∈ s.faults, 1 ≤ r.cmdidx ∧ r.cmdidx ≤ s.cmdidx)
    (counted : s.cmdidx ≠ 0) : s.HistInv where
  open_marker busy := absurd busy phase
  closed_frame _ := closed
  fault_recorded e exc := by simp [cause] at exc
  records_accepted := records
  fresh zero := absurd zero counted

/-- Fault entry adds the ABORT word and the entry that names the counted word (R99). -/
theorem State.HistInv.raise {s : State} (hist : s.HistInv) (counted : s.cmdidx ≠ 0) (e : Exc) :
    (s.raise e).HistInv where
  open_marker busy := by simp at busy
  closed_frame _ b := by simp
  fault_recorded e' cause := by
    obtain rfl : e = e' := by simpa using cause
    simp
  records_accepted r hr := by
    rw [raise_faults, List.mem_append, List.mem_singleton] at hr
    obtain old | rfl := hr
    · exact hist.records_accepted r old
    · exact ⟨Nat.one_le_iff_ne_zero.mpr counted, le_rfl⟩
  fresh zero := absurd zero counted

/-- In an open frame with an open run, OUT ends with the run's marker (R13). -/
def State.MarkerLast (s : State) : Prop := s.run = true → s.out.getLast? = some (.byte 0x00#8)

theorem State.MarkerLast.rlStep {s : State} (marker : s.MarkerLast) (b : Byte) : (rlStep b s).MarkerLast := by
  intro opened
  rcases rlStep_cases b s with ⟨closed, _, step⟩ | ⟨_, _, step⟩ | ⟨run, _, _, step⟩ | ⟨_, _, _, step⟩ | ⟨_, _, step⟩ <;>
    rw [step] at opened ⊢
  · simp [closed] at opened
  · simp
  · exact marker run
  · simp at opened
  · simp at opened

/-- With the encoder bypassed no run is open (R24 item 6), so only its steps matter. -/
theorem State.MarkerLast.deliver {s : State} (marker : s.MarkerLast) (inv : s.Inv) (r : Option Byte) :
    (deliver r s).MarkerLast := by
  cases r with
  | none => exact marker
  | some a =>
    rw [deliver_some]
    cases encoding : bypRle s.mode with
    | true =>
      obtain ⟨closed, _⟩ := inv.rle_bypassed encoding
      rw [rleStage_raw a s encoding]
      intro opened
      simp [closed] at opened
    | false => rw [rleStage_encoded a s encoding]; exact marker.rlStep a

theorem State.HistInv.markerLast {s : State} (hist : s.HistInv) (inv : s.Inv) (outside : s.phase ≠ .fault) :
    s.MarkerLast := by
  intro opened
  cases phase : s.phase with
  | idle =>
    obtain ⟨_, _, closed, _⟩ := inv.idle_clear phase
    simp [closed] at opened
  | busy => exact hist.open_marker phase opened
  | fault => exact absurd phase outside

theorem dataEffect_markerLast {s : State} (inv : s.Inv) (hist : s.HistInv) (outside : s.phase ≠ .fault) (d : Byte) :
    (dataEffect d s).MarkerLast := by
  have opened := inv.setPhase_busy outside
  refine State.MarkerLast.deliver ?_ (opened.packStage rfl d) _
  obtain ⟨a, k, effect⟩ := packStage_frame d (s.setPhase .busy)
  rw [effect]
  exact hist.markerLast inv outside

@[simp] theorem dataEffect_faults (d : Byte) (s : State) : (dataEffect d s).faults = s.faults := by
  obtain ⟨_, _, _, _, _, _, effect⟩ := dataEffect_frame d s
  rw [effect]

@[simp] theorem dataEffect_cause (d : Byte) (s : State) : (dataEffect d s).cause = s.cause := by
  obtain ⟨_, _, _, _, _, _, effect⟩ := dataEffect_frame d s
  rw [effect]

theorem State.HistInv.dataEffect {s : State} (hist : s.HistInv) (inv : s.Inv) (outside : s.phase ≠ .fault)
    (counted : s.cmdidx ≠ 0) (d : Byte) : (dataEffect d s).HistInv where
  open_marker _ := dataEffect_markerLast inv hist outside d
  closed_frame closed := absurd (dataEffect_phase d s) closed
  fault_recorded e cause := by simp [inv.cause_of_not_fault outside] at cause
  records_accepted := by simpa using hist.records_accepted
  fresh zero := absurd ((dataEffect_cmdidx d s).symm.trans zero) counted

theorem closeFrame_getLast? (s : State) : (closeFrame s).out.getLast? = some .eof := by
  rcases closeFrame_cases s with ⟨_, _, closed⟩ | ⟨_, closed⟩ <;> rw [closed] <;> simp

theorem State.HistInv.closeFrame {s : State} (hist : s.HistInv) (inv : s.Inv) (outside : s.phase ≠ .fault)
    (counted : s.cmdidx ≠ 0) : (closeFrame s).HistInv := by
  obtain ⟨_, cause, faults⟩ := closeFrame_frame s
  refine .of_closed (by simp) (cause.trans (inv.cause_of_not_fault outside)) (by simp [closeFrame_getLast?]) ?_
    (by simpa using counted)
  rw [faults, closeFrame_cmdidx]
  exact hist.records_accepted

theorem State.HistInv.setMode {s : State} (hist : s.HistInv) (inv : s.Inv) (idle : s.phase = .idle)
    (counted : s.cmdidx ≠ 0) (m : Mode) : (s.setMode m).HistInv := by
  obtain ⟨_, _, _, _, cause⟩ := inv.idle_clear idle
  exact .of_closed (by simp [idle]) cause (hist.closed_frame (by simp [idle])) hist.records_accepted counted

theorem State.HistInv.clearFrame {s : State} (hist : s.HistInv) (closed : s.phase ≠ .busy) (counted : s.cmdidx ≠ 0) :
    s.clearFrame.HistInv :=
  .of_closed (by simp) rfl (hist.closed_frame closed) hist.records_accepted counted

/-- CLR in an open frame closes it with an ABORT word. -/
theorem State.HistInv.cancel {s : State} (hist : s.HistInv) (counted : s.cmdidx ≠ 0) :
    (s.emitAbort .cancelled).clearFrame.HistInv :=
  .of_closed (by simp) rfl (by simp) hist.records_accepted counted

/-! ### The bookkeeping of every step -/

theorem State.HistInv.accept {s t : State} (hist : s.HistInv) (inv : s.Inv) {w : CmdWord} (h : accept w s = .next t) :
    t.HistInv := by
  have counted : s.countCommand.cmdidx ≠ 0 := by simp
  have hist := hist.countCommand
  have inv := inv.countCommand
  rcases accept_cases s w t h with ⟨phase, _, rfl⟩ | ⟨_, _, rfl⟩ | ⟨_, _, rfl⟩ | ⟨outside, d, _, rfl⟩ | ⟨_, _, _, rfl⟩ |
    ⟨outside, _, good, rfl⟩ | ⟨idle, m, _, rfl⟩ | ⟨_, _, rfl⟩ | ⟨_, _, rfl⟩ | ⟨phase, _, rfl⟩
  · exact hist.clearFrame (by simp [phase]) counted
  · exact hist
  · exact hist.raise counted _
  · exact hist.dataEffect inv outside counted d
  · exact hist.raise counted _
  · exact hist.closeFrame inv outside counted
  · exact hist.setMode inv idle counted m
  · exact hist.raise counted _
  · exact hist.cancel counted
  · exact hist.clearFrame (by simp [phase]) counted

theorem State.HistInv.step {s t : State} (hist : s.HistInv) (inv : s.Inv) (h : step s = .next t) : t.HistInv := by
  rcases step_cases s with ⟨_, same⟩ | ⟨w, rest, _, word⟩ | ⟨rest, _, _, refused⟩ | ⟨rest, _, _, resets⟩
  · rw [same] at h; cases h; exact hist
  · rw [word] at h; exact (hist.setInput rest).accept (inv.setInput rest) h
  · rw [refused] at h; cases h
  · rw [resets] at h; cases h; exact reset_histInv.setInput rest

/-- Settles O4: by what stands at the head of IN, and for a word by the kinds of next state it can have. -/
theorem stepKeepsHistInv : Obligations.StepKeepsHistInv := by
  unfold Obligations.StepKeepsHistInv
  exact fun _ _ inv hist h => hist.step inv h

/-- Settles O2: the two base cases. -/
theorem resetMeetsInvariants : Obligations.ResetMeetsInvariants := by
  unfold Obligations.ResetMeetsInvariants
  exact ⟨reset_inv, reset_histInv⟩

/-! ### Runs -/

theorem core_step (s : State) : Sys2Proof.core.step s = step s := rfl

theorem run_succ_of_step {s t : State} (h : step s = .next t) (k : Nat) :
    Sys2Proof.core.run (k + 1) s = Sys2Proof.core.run k t := by
  simp only [Host.Core.run, core_step, h]

theorem step_of_run_succ {k : Nat} {s u : State} (h : Sys2Proof.core.run (k + 1) s = .next u) :
    ∃ t, step s = .next t ∧ Sys2Proof.core.run k t = .next u := by
  cases hs : step s with
  | next t => exact ⟨t, rfl, by rwa [run_succ_of_step hs] at h⟩
  | fault f => cases f
  | refused r => simp only [Host.Core.run, core_step, hs] at h; cases h

/-- A run can be cut after any number of its steps. -/
theorem run_add {j : Nat} {s u : State} (h : Sys2Proof.core.run j s = .next u) (k : Nat) :
    Sys2Proof.core.run (j + k) s = Sys2Proof.core.run k u := by
  induction j generalizing s with
  | zero => cases h; rw [Nat.zero_add]
  | succ j ih =>
    obtain ⟨t, hstep, hrun⟩ := step_of_run_succ h
    rw [Nat.succ_add, run_succ_of_step hstep, ih hrun]

/-- What every step keeps, a run keeps. -/
theorem run_keeps {P : State → Prop} (kept : ∀ s t, P s → step s = .next t → P t) {k : Nat} {s t : State} (hs : P s)
    (h : Sys2Proof.core.run k s = .next t) : P t := by
  induction k generalizing s with
  | zero => cases h; exact hs
  | succ k ih =>
    obtain ⟨u, hstep, hrun⟩ := step_of_run_succ h
    exact ih (kept s u hs hstep) hrun

/-- The fault record only grows. -/
theorem accept_faults_prefix {w : CmdWord} {s t : State} (h : accept w s = .next t) : s.faults <+: t.faults := by
  rcases accept_cases s w t h with ⟨_, _, rfl⟩ | ⟨_, _, rfl⟩ | ⟨_, _, rfl⟩ | ⟨_, d, _, rfl⟩ | ⟨_, _, _, rfl⟩ |
    ⟨_, _, _, rfl⟩ | ⟨_, m, _, rfl⟩ | ⟨_, _, rfl⟩ | ⟨_, _, rfl⟩ | ⟨_, _, rfl⟩ <;>
    simp [closeFrame_frame]

/-- Even a reset does not shorten it: before the first command it is empty. -/
theorem step_faults_prefix {s t : State} (hist : s.HistInv) (h : step s = .next t) : s.faults <+: t.faults := by
  rcases step_cases s with ⟨_, same⟩ | ⟨w, rest, _, word⟩ | ⟨rest, _, _, refused⟩ | ⟨rest, _, zero, resets⟩
  · rw [same] at h; cases h; exact List.prefix_rfl
  · rw [word] at h; exact accept_faults_prefix (s := { s with inp := rest }) h
  · rw [refused] at h; cases h
  · rw [show s.faults = [] from congrArg State.faults (hist.fresh zero)]
    exact List.nil_prefix

theorem run_faults_prefix {k : Nat} {s t : State} (inv : s.Inv) (hist : s.HistInv)
    (h : Sys2Proof.core.run k s = .next t) : s.faults <+: t.faults := by
  obtain ⟨_, _, grown⟩ := run_keeps (P := fun u => u.Inv ∧ u.HistInv ∧ s.faults <+: u.faults)
    (fun u v ⟨inv, hist, grown⟩ hstep =>
      ⟨inv.step hstep, hist.step inv hstep, grown.trans (step_faults_prefix hist hstep)⟩)
    ⟨inv, hist, List.prefix_rfl⟩ h
  exact grown

/-- FAULT is a recorded fault (R99, R102). -/
theorem State.HistInv.not_fault {s : State} (hist : s.HistInv) (inv : s.Inv) (empty : s.faults = []) :
    s.phase ≠ .fault := by
  intro fault
  have cause := inv.fault_iff_cause.mp fault
  cases h : s.cause with
  | noFault => exact cause h
  | exc e =>
    obtain ⟨_, recorded⟩ := hist.fault_recorded e h
    simp [empty] at recorded

/-- Settles O46: the last record goes on from an earlier one's, which is hence empty, and FAULT would be in it. -/
theorem noFaultMeansNeverInFault : Obligations.NoFaultMeansNeverInFault := by
  unfold Obligations.NoFaultMeansNeverInFault
  intro k s t inv hist hrun empty j u hj hu
  obtain ⟨invu, histu⟩ := run_keeps (P := fun u => u.Inv ∧ u.HistInv)
    (fun u v ⟨inv, hist⟩ hstep => ⟨inv.step hstep, hist.step inv hstep⟩) ⟨inv, hist⟩ hu
  have rest : Sys2Proof.core.run (k - j) u = .next t := by
    rw [← run_add hu, Nat.add_sub_cancel' hj, hrun]
  have emptyu : u.faults = [] := by
    have grown := run_faults_prefix invu histu rest
    rwa [show t.faults = [] from empty, List.prefix_nil] at grown
  exact ⟨histu.not_fault invu emptyu, emptyu⟩

/-- Settles O47: with nothing offered a step answers the same state. -/
theorem idleKeepsState : Obligations.IdleKeepsState := by
  unfold Obligations.IdleKeepsState
  intro k s hinp
  have same : step s = .next s := by simp only [step, takeInput, hinp]
  induction k with
  | zero => rfl
  | succ k ih => rw [run_succ_of_step same, ih]

end Sys2Proof.Machine

/-! PROOFS. The function rle run by run, its laws, its size bounds and its round trip with dec (41_rle.md R64, R69 to R73). -/
namespace Sys2Proof.Machine

/-! ### Leading zeros -/

@[simp] theorem lz_nil : lz [] = 0 := rfl

@[simp] theorem lz_cons_zero (T : List Byte) : lz (0x00#8 :: T) = lz T + 1 := by
  simp [lz]

theorem lz_cons_literal {b : Byte} (hb : b ≠ 0x00#8) (T : List Byte) : lz (b :: T) = 0 := by
  simp [lz, hb]

theorem lz_cons_eq_zero_iff (b : Byte) (T : List Byte) : lz (b :: T) = 0 ↔ b ≠ 0x00#8 := by
  by_cases hb : b = 0x00#8
  · simp [hb]
  · simp [hb, lz_cons_literal hb]

@[simp] theorem lz_replicate_append (k : Nat) (T : List Byte) : lz (List.replicate k 0x00#8 ++ T) = k + lz T := by
  induction k with
  | zero => simp
  | succ k ih => simp [List.replicate_succ, ih]; omega

@[simp] theorem lz_replicate (k : Nat) : lz (List.replicate k 0x00#8) = k := by
  simpa using lz_replicate_append k []

/-- A sequence is its leading zeros and what follows them. -/
theorem eq_replicate_lz_append (B : List Byte) : B = List.replicate (lz B) 0x00#8 ++ B.drop (lz B) := by
  induction B with
  | nil => rfl
  | cons b T ih =>
    by_cases hb : b = 0x00#8
    · subst hb
      rw [lz_cons_zero, List.replicate_succ, List.cons_append, List.drop_succ_cons, ← ih]
    · rw [lz_cons_literal hb]; rfl

theorem lz_drop_lz (B : List Byte) : lz (B.drop (lz B)) = 0 := by
  have split := congrArg lz (eq_replicate_lz_append B)
  rw [lz_replicate_append] at split
  omega

theorem lz_append {B : List Byte} (h : ∃ b ∈ B, b ≠ 0x00#8) (C : List Byte) : lz (B ++ C) = lz B := by
  induction B with
  | nil => simp at h
  | cons b T ih =>
    by_cases hb : b = 0x00#8
    · subst hb
      rw [List.cons_append, lz_cons_zero, lz_cons_zero, ih (by simpa using h)]
    · rw [List.cons_append, lz_cons_literal hb, lz_cons_literal hb]

/-! ### Trailing zeros -/

@[simp] theorem tz_nil : tz [] = 0 := rfl

@[simp] theorem tz_replicate (k : Nat) : tz (List.replicate k 0x00#8) = k := by
  simp [tz]

/-- What stands before a byte that is not zero does not count. -/
theorem tz_append {T : List Byte} (h : ∃ b ∈ T, b ≠ 0x00#8) (A : List Byte) : tz (A ++ T) = tz T := by
  rw [tz, List.reverse_append, lz_append (by simpa using h), tz]

theorem tz_append_replicate (A : List Byte) (k : Nat) : tz (A ++ List.replicate k 0x00#8) = tz A + k := by
  rw [tz, List.reverse_append, List.reverse_replicate, lz_replicate_append, tz, Nat.add_comm]

/-- A row of bytes is all zeros, or holds a byte that is not zero. -/
theorem eq_replicate_or_exists_ne_zero (T : List Byte) :
    T = List.replicate T.length 0x00#8 ∨ ∃ b ∈ T, b ≠ 0x00#8 := by
  by_cases h : ∃ b ∈ T, b ≠ 0x00#8
  · exact .inr h
  · exact .inl (List.eq_replicate_of_mem (by simpa using h))

theorem tz_cons_literal {b : Byte} (hb : b ≠ 0x00#8) (T : List Byte) : tz (b :: T) = tz T := by
  obtain zeros | literal := eq_replicate_or_exists_ne_zero T
  · have alone : tz [b] = 0 := lz_cons_literal hb []
    rw [zeros, ← List.singleton_append, tz_append_replicate, alone, tz_replicate, Nat.zero_add]
  · exact tz_append literal [b]

theorem tz_concat (A : List Byte) (b : Byte) : tz (A ++ [b]) = if b = 0x00#8 then tz A + 1 else 0 := by
  simp [tz, lz]

/-- A whole run of 255 zeros in front changes the number of trailing zeros by 0 or by 255. -/
theorem tz_replicate_255_append (T : List Byte) : tz (List.replicate 255 0x00#8 ++ T) % 255 = tz T % 255 := by
  obtain zeros | literal := eq_replicate_or_exists_ne_zero T
  · rw [zeros, tz_append_replicate, tz_replicate, tz_replicate, Nat.add_mod_left]
  · rw [tz_append literal]

/-! ### rle run by run (R64)

A sequence is empty, a literal before a sequence, or one encoded run of 1 to 255 zeros before a sequence; a run shorter
than 255 ends where the zeros end. -/

theorem rle_run {k : Nat} {T : List Byte} (pos : 1 ≤ k) (le : k ≤ 255) (ends : k < 255 → lz T = 0) :
    rle (List.replicate k 0x00#8 ++ T) = 0x00#8 :: BitVec.ofNat 8 k :: rle T := by
  obtain ⟨j, rfl⟩ := Nat.exists_eq_add_of_le' pos
  have taken : min (j + lz T) 254 = j := by
    by_cases whole : j + 1 < 255
    · have := ends whole; omega
    · omega
  rw [List.replicate_succ, List.cons_append, rle_cons_zero, lz_replicate_append, taken, Nat.add_comm 1 j,
    List.drop_left' List.length_replicate]

theorem rle_induction {motive : List Byte → Prop} (nil : motive [])
    (literal : ∀ b T, b ≠ 0x00#8 → motive T → motive (b :: T))
    (run : ∀ k T, 1 ≤ k → k ≤ 255 → (k < 255 → lz T = 0) → motive T → motive (List.replicate k 0x00#8 ++ T))
    (B : List Byte) : motive B := by
  induction h : B.length using Nat.strong_induction_on generalizing B with
  | _ n ih =>
    subst h
    by_cases zeros : lz B = 0
    · match B, zeros with
      | [], _ => exact nil
      | b :: T, zeros => exact literal b T ((lz_cons_eq_zero_iff b T).mp zeros) (ih T.length (by simp) T rfl)
    · have split := eq_replicate_lz_append B
      have rest : B = List.replicate (min (lz B) 255) 0x00#8 ++
          (List.replicate (lz B - 255) 0x00#8 ++ B.drop (lz B)) := by
        have lengths : min (lz B) 255 + (lz B - 255) = lz B := by omega
        calc B = List.replicate (lz B) 0x00#8 ++ B.drop (lz B) := split
          _ = _ := by rw [← List.append_assoc, List.replicate_append_replicate, lengths]
      rw [rest]
      refine run _ _ (by omega) (by omega) (fun short => ?_) (ih _ ?_ _ rfl)
      · rw [lz_replicate_append, lz_drop_lz]; omega
      · conv_rhs => rw [rest]
        simp only [List.length_append, List.length_replicate]
        omega

/-! ### Zero runs, concatenation and length (R69, R70) -/

theorem rle_eq_self {B : List Byte} (h : ∀ b ∈ B, b ≠ 0x00#8) : rle B = B := by
  induction B with
  | nil => rfl
  | cons b T ih =>
    rw [List.forall_mem_cons] at h
    obtain ⟨hb, hT⟩ := h
    rw [rle_cons_literal b T hb, ih hT]

/-- A short run whose zeros go on is not encoded alone: its count byte is larger than the part's own. -/
theorem rle_replicate_append_ne {k : Nat} {C : List Byte} (pos : 1 ≤ k) (short : k < 255) (more : lz C ≠ 0)
    (S : List Byte) : rle (List.replicate k 0x00#8 ++ C) ≠ 0x00#8 :: BitVec.ofNat 8 k :: S := by
  obtain ⟨j, rfl⟩ := Nat.exists_eq_add_of_le' pos
  rw [List.replicate_succ, List.cons_append, rle_cons_zero, lz_replicate_append]
  intro same
  injection same with _ same
  injection same with count _
  have numbers := congrArg BitVec.toNat count
  rw [BitVec.toNat_ofNat, BitVec.toNat_ofNat] at numbers
  omega

/-- Induction over the encoded runs of B: only the last one, if it is short, can be lengthened by C. -/
theorem rle_append_iff (B C : List Byte) : rle (B ++ C) = rle B ++ rle C ↔ lz C = 0 ∨ tz B % 255 = 0 := by
  induction B using rle_induction with
  | nil => simp
  | literal b T hb ih =>
    rw [List.cons_append, rle_cons_literal b _ hb, rle_cons_literal b T hb, tz_cons_literal hb, ← ih]
    simp
  | run k T pos le ends ih =>
    by_cases last : k < 255 ∧ T = []
    · obtain ⟨short, rfl⟩ := last
      rw [List.append_nil, tz_replicate, Nat.mod_eq_of_lt short]
      have alone : rle (List.replicate k 0x00#8) = [0x00#8, BitVec.ofNat 8 k] := by
        simpa using rle_run (T := []) pos le (fun _ => rfl)
      constructor
      · intro same
        rw [alone] at same
        exact .inl (not_not.mp fun more => rle_replicate_append_ne pos short more _ same)
      · rintro (closed | empty)
        · rw [rle_run pos le (fun _ => closed), alone]; rfl
        · omega
    · have trailing : tz (List.replicate k 0x00#8 ++ T) % 255 = tz T % 255 := by
        obtain rfl | short := le.eq_or_lt
        · exact tz_replicate_255_append T
        · match T, ends short, last with
          | [], _, last => exact absurd ⟨short, rfl⟩ last
          | b :: T, closed, _ => rw [tz_append ⟨b, by simp, (lz_cons_eq_zero_iff b T).mp closed⟩]
      have endsC (short : k < 255) : lz (T ++ C) = 0 := by
        match T, ends short, last with
        | [], _, last => exact absurd ⟨short, rfl⟩ last
        | b :: T, closed, _ => exact lz_cons_literal ((lz_cons_eq_zero_iff b T).mp closed) _
      rw [List.append_assoc, rle_run pos le endsC, rle_run pos le ends, trailing, ← ih]
      simp

theorem encodedRuns_add_255 (L : Nat) : encodedRuns (L + 255) = 0x00#8 :: 0xFF#8 :: encodedRuns L := by
  have quotient : (L + 255) / 255 = L / 255 + 1 := by omega
  rw [encodedRuns, encodedRuns, quotient, Nat.add_mod_right, List.replicate_succ]
  rfl

theorem encodedRuns_short {L : Nat} (pos : 1 ≤ L) (short : L < 255) : encodedRuns L = [0x00#8, BitVec.ofNat 8 L] := by
  rw [encodedRuns, Nat.div_eq_of_lt short, Nat.mod_eq_of_lt short, if_neg (by omega)]
  rfl

theorem rle_replicate_zero (L : Nat) : rle (List.replicate L 0x00#8) = encodedRuns L := by
  induction L using Nat.strong_induction_on with
  | _ L ih =>
    by_cases short : L < 255
    · obtain rfl | pos := Nat.eq_zero_or_pos L
      · rfl
      · rw [encodedRuns_short pos short, ← rle_nil, ← rle_run pos short.le (fun _ => lz_nil), List.append_nil]
    · obtain ⟨M, rfl⟩ := Nat.exists_eq_add_of_le' (Nat.not_lt.mp short)
      rw [encodedRuns_add_255, ← ih M (by omega), Nat.add_comm, ← List.replicate_append_replicate,
        rle_run (by decide) le_rfl (fun h => absurd h (by decide))]

/-- Settles O25: before the run concatenation commutes because nothing trails, after it because nothing leads. -/
theorem zeroRunSplit : Obligations.ZeroRunSplit := by
  unfold Obligations.ZeroRunSplit
  refine ⟨fun A C L _ before after => ?_, ?_⟩
  · rw [(rle_append_iff _ C).mpr (.inl after), (rle_append_iff A _).mpr (.inr (by rw [before])), rle_replicate_zero]
  · rw [rle_replicate_zero]; rfl

/-- Settles O24: the literals by the equations of R64, the zero runs by their encoded runs. -/
theorem rleWorkedValues : Obligations.RleWorkedValues := by
  unfold Obligations.RleWorkedValues
  simp only [rle_replicate_zero]
  exact ⟨rfl, rfl, rfl, rfl, rfl, rfl, rfl, rfl⟩

/-- The number of encoded runs that the zero runs of T take, `k` zeros being open already (R69). -/
def encodedRunCount (k : Nat) (T : List Byte) : Nat := ((zeroRunsFrom k T).map (fun L => (L + 254) / 255)).sum

/-- The first zero run is the open one with the leading zeros. -/
theorem encodedRunCount_eq (k : Nat) (T : List Byte) :
    encodedRunCount k T = (k + lz T + 254) / 255 + encodedRunCount 0 (T.drop (lz T)) := by
  induction T generalizing k with
  | nil => by_cases hk : k = 0 <;> simp [encodedRunCount, zeroRunsFrom, hk]
  | cons b T ih =>
    by_cases hb : b = 0x00#8
    · subst hb
      have onward : encodedRunCount k (0x00#8 :: T) = encodedRunCount (k + 1) T := by
        simp [encodedRunCount, zeroRunsFrom]
      rw [onward, ih, lz_cons_zero, List.drop_succ_cons, Nat.add_assoc k 1, Nat.add_comm 1]
    · by_cases hk : k = 0 <;> simp [encodedRunCount, zeroRunsFrom, hb, hk, lz_cons_literal hb]

theorem encodedRunCount_literal {b : Byte} (hb : b ≠ 0x00#8) (T : List Byte) :
    encodedRunCount 0 (b :: T) = encodedRunCount 0 T := by
  simp [encodedRunCount, zeroRunsFrom, hb]

theorem encodedRunCount_run {k : Nat} {T : List Byte} (pos : 1 ≤ k) (le : k ≤ 255) (ends : k < 255 → lz T = 0) :
    encodedRunCount 0 (List.replicate k 0x00#8 ++ T) = 1 + encodedRunCount 0 T := by
  have dropped : (List.replicate k 0x00#8 ++ T).drop (k + lz T) = T.drop (lz T) := by
    rw [List.drop_append, List.length_replicate, Nat.add_sub_cancel_left, List.drop_eq_nil_of_le (by simp)]
    rfl
  rw [encodedRunCount_eq, encodedRunCount_eq 0 T, lz_replicate_append, dropped]
  by_cases short : k < 255
  · have := ends short; omega
  · omega

theorem rle_length (B : List Byte) :
    (rle B).length = (B.filter (fun b => b != 0x00#8)).length + 2 * encodedRunCount 0 B := by
  induction B using rle_induction with
  | nil => rfl
  | literal b T hb ih =>
    rw [rle_cons_literal b T hb, encodedRunCount_literal hb, List.filter_cons_of_pos (by simpa using hb),
      List.length_cons, List.length_cons, ih]
    omega
  | run k T pos le ends ih =>
    rw [rle_run pos le ends, encodedRunCount_run pos le ends, List.filter_append, List.filter_replicate]
    simp only [List.length_cons, ih, bne_self_eq_false, Bool.false_eq_true, if_false, List.nil_append]
    omega

/-- Settles O27: identity, concatenation and length each by induction over the sequence. -/
theorem rleLaws : Obligations.RleLaws := by
  unfold Obligations.RleLaws
  exact ⟨fun B => rle_eq_self, rle_append_iff, rle_length⟩

/-! ### Size bounds (R71) -/

theorem encodedRuns_length (L : Nat) : (encodedRuns L).length = 2 * ((L + 254) / 255) := by
  have whole : ((List.replicate (L / 255) [0x00#8, 0xFF#8]).flatten).length = 2 * (L / 255) := by
    simp [Nat.mul_comm]
  rw [encodedRuns, List.length_append, whole]
  by_cases rest : L % 255 = 0
  · rw [if_pos rest, List.length_nil]; omega
  · rw [if_neg rest, List.length_cons, List.length_singleton]; omega

theorem le_rle_length (B : List Byte) : 2 * (B.length / 255) + min (B.length % 255) 2 ≤ (rle B).length := by
  induction B using rle_induction with
  | nil => exact le_rfl
  | literal b T hb ih => rw [rle_cons_literal b T hb, List.length_cons, List.length_cons]; omega
  | run k T pos le ends ih =>
    rw [rle_run pos le ends]
    simp only [List.length_cons, List.length_append, List.length_replicate]
    omega

/-- A sequence that does not begin with a zero is bounded more tightly, which is what a lone zero before it needs. -/
theorem rle_length_le_and_of_lz_eq_zero (B : List Byte) :
    (rle B).length ≤ B.length + (B.length + 1) / 2 ∧ (lz B = 0 → (rle B).length ≤ B.length + B.length / 2) := by
  induction B using rle_induction with
  | nil => simp
  | literal b T hb ih =>
    obtain ⟨ih, _⟩ := ih
    rw [rle_cons_literal b T hb, List.length_cons, List.length_cons]
    omega
  | run k T pos le ends ih =>
    obtain ⟨ih, ihLiteral⟩ := ih
    rw [rle_run pos le ends, lz_replicate_append]
    simp only [List.length_cons, List.length_append, List.length_replicate]
    by_cases lone : k = 1
    · have := ihLiteral (ends (by omega)); omega
    · omega

theorem rle_length_le (B : List Byte) : (rle B).length ≤ B.length + (B.length + 1) / 2 := by
  obtain ⟨bound, _⟩ := rle_length_le_and_of_lz_eq_zero B
  exact bound

/-- Zero and non-zero bytes in turn, beginning with a zero (R71). -/
def Alternates (B : List Byte) : Prop := ∀ i, i < B.length → (B[i]? = some 0x00#8 ↔ i % 2 = 0)

theorem rle_zero_literal {b : Byte} (hb : b ≠ 0x00#8) (T : List Byte) :
    rle (0x00#8 :: b :: T) = 0x00#8 :: 0x01#8 :: b :: rle T := by
  rw [rle_cons_zero, lz_cons_literal hb]
  exact congrArg (fun S => 0x00#8 :: 0x01#8 :: S) (rle_cons_literal b T hb)

theorem rle_length_of_alternates : ∀ B : List Byte, Alternates B → (rle B).length = B.length + (B.length + 1) / 2
  | [], _ => rfl
  | [b], alternates => by
    obtain rfl : b = 0x00#8 := by simpa using alternates 0
    rfl
  | b :: c :: T, alternates => by
    obtain rfl : b = 0x00#8 := by simpa using alternates 0
    have hc : c ≠ 0x00#8 := by simpa using alternates 1
    have rest : Alternates T := fun i hi => by
      simpa [Nat.add_mod_right] using alternates (i + 2) (by simpa using hi)
    rw [rle_zero_literal hc]
    simp only [List.length_cons, rle_length_of_alternates T rest]
    omega

/-- The alternating sequence of `n` bytes whose non-zero bytes are 0x01. -/
def alternating (n : Nat) : List Byte := (List.range n).map (fun i => if i % 2 = 0 then 0x00#8 else 0x01#8)

theorem alternating_alternates (n : Nat) : Alternates (alternating n) := by
  intro i hi
  rw [alternating, List.length_map, List.length_range] at hi
  simp [alternating, hi]

/-- Settles O28: the bounds by induction over the encoded runs; alternating input reaches the upper one. -/
theorem rleSizeBounds : Obligations.RleSizeBounds := by
  unfold Obligations.RleSizeBounds
  refine ⟨fun n => ?_, fun B => ⟨le_rle_length B, rle_length_le B⟩, fun n => ?_, rle_length_of_alternates⟩
  · rw [rle_replicate_zero, encodedRuns_length]
  · have reached := rle_length_of_alternates _ (alternating_alternates n)
    have length : (alternating n).length = n := by simp [alternating]
    rw [length] at reached
    exact ⟨alternating n, length, reached⟩

/-! ### Canonical streams (R50, R70 items 2 and 3) and the round trip (R73) -/

theorem Token.lit_wellFormed_iff (b : Byte) : (Token.lit b).wellFormed = true ↔ b ≠ 0x00#8 := bne_iff_ne

theorem Token.zrun_wellFormed_iff (n : Byte) : (Token.zrun n).wellFormed = true ↔ n ≠ 0x00#8 := bne_iff_ne

/-- A literal next to anything is canonical. -/
theorem canonical_lit_cons (b : Byte) (ts : List Token) : canonical (.lit b :: ts) = canonical ts := by
  simp [canonical]

/-- The next token is a ZRUN exactly when what the tokens stand for goes on with a zero. -/
theorem canonical_zrun_cons_iff {ts : List Token} (wf : ts.all Token.wellFormed = true) (n : Byte) :
    canonical (.zrun n :: ts) = true ↔ (n ≠ 0xFF#8 → lz (ts.flatMap Token.expand) = 0) ∧ canonical ts = true := by
  match ts, wf with
  | [], _ => simp [canonical]
  | .lit b :: ts, wf =>
    rw [List.all_cons, Bool.and_eq_true, Token.lit_wellFormed_iff] at wf
    obtain ⟨hb, _⟩ := wf
    have literal : lz ((Token.lit b).expand ++ ts.flatMap Token.expand) = 0 := lz_cons_literal hb _
    simp [canonical, literal]
  | .zrun m :: ts, wf =>
    rw [List.all_cons, Bool.and_eq_true, Token.zrun_wellFormed_iff] at wf
    obtain ⟨hm, _⟩ := wf
    have zeros : lz ((Token.zrun m).expand ++ ts.flatMap Token.expand) ≠ 0 := by
      have pos : m.toNat ≠ 0 := fun zero => hm (BitVec.eq_of_toNat_eq zero)
      rw [Token.expand, lz_replicate_append]
      omega
    simp [canonical, zeros]

/-- Settles O26: one token per encoded run and per literal; a run of less than 255 is not followed by a zero. -/
theorem rleIsCanonical : Obligations.RleIsCanonical := by
  unfold Obligations.RleIsCanonical
  intro B
  induction B using rle_induction with
  | nil => exact ⟨[], rfl, rfl, rfl, rfl⟩
  | literal b T hb ih =>
    obtain ⟨ts, wf, canon, bytes, rfl⟩ := ih
    refine ⟨.lit b :: ts, ?_, ?_, ?_, rfl⟩
    · rw [List.all_cons, wf, (Token.lit_wellFormed_iff b).mpr hb]; rfl
    · rw [canonical_lit_cons, canon]
    · rw [rle_cons_literal b _ hb, bytes]; rfl
  | run k T pos le ends ih =>
    obtain ⟨ts, wf, canon, bytes, rfl⟩ := ih
    have count : (BitVec.ofNat 8 k).toNat = k := by rw [BitVec.toNat_ofNat]; omega
    refine ⟨.zrun (BitVec.ofNat 8 k) :: ts, ?_, ?_, ?_, ?_⟩
    · have nonzero : BitVec.ofNat 8 k ≠ 0x00#8 := fun zero => by simp [zero] at count; omega
      rw [List.all_cons, wf, (Token.zrun_wellFormed_iff _).mpr nonzero]; rfl
    · refine (canonical_zrun_cons_iff wf _).mpr ⟨fun notFull => ends ?_, canon⟩
      refine le.lt_of_ne fun full => notFull ?_
      rw [full]
    · rw [rle_run pos le ends, bytes]; rfl
    · rw [List.flatMap_cons, Token.expand, count]

theorem dec_rle (B : List Byte) : dec (rle B) = .ok B := by
  obtain ⟨ts, wf, _, bytes, rfl⟩ := rleIsCanonical B
  obtain ⟨expands, _⟩ := decoderRule
  rw [bytes, expands ts wf]

/-- Re-encoding what a canonical row stands for gives its bytes back. -/
theorem rle_expand_of_canonical {ts : List Token} (wf : ts.all Token.wellFormed = true) (canon : canonical ts = true) :
    rle (ts.flatMap Token.expand) = tokenBytes ts := by
  induction ts with
  | nil => rfl
  | cons t ts ih =>
    rw [List.all_cons, Bool.and_eq_true] at wf
    obtain ⟨ht, wf⟩ := wf
    cases t with
    | lit b =>
      rw [canonical_lit_cons] at canon
      rw [List.flatMap_cons, Token.expand, List.singleton_append,
        rle_cons_literal b _ ((Token.lit_wellFormed_iff b).mp ht), ih wf canon]
      rfl
    | zrun n =>
      obtain ⟨ends, canon⟩ := (canonical_zrun_cons_iff wf n).mp canon
      have pos : n.toNat ≠ 0 := fun zero => (Token.zrun_wellFormed_iff n).mp ht (BitVec.eq_of_toNat_eq zero)
      have short (h : n.toNat < 255) : lz (ts.flatMap Token.expand) = 0 :=
        ends fun full => by rw [full] at h; exact absurd h (by decide)
      rw [List.flatMap_cons, Token.expand, rle_run (by omega) (by omega) short, BitVec.ofNat_toNat,
        BitVec.setWidth_eq, ih wf canon]
      rfl

/-- A MODE 0b00 frame is the encoding of the packed pixels (R89). -/
theorem pack_of_codec_eq_ok {P Y : List Byte} (h : codec 0b00#2 P = .ok Y) : ∃ B, pack P = .ok B ∧ Y = rle B := by
  have firstPack : firstStage 0b00#2 P = pack P := rfl
  rw [codec, firstPack] at h
  cases packed : pack P with
  | error e => rw [packed] at h; cases h
  | ok B => rw [packed] at h; cases h; exact ⟨B, rfl, rfl⟩

/-- Settles O30: rle(B) is a row of tokens for B, and rle inverts dec on canonical rows alone. -/
theorem roundTrip : Obligations.RoundTrip := by
  unfold Obligations.RoundTrip
  refine ⟨dec_rle, fun S D decoded => ⟨?_, ?_⟩, fun P Y coded => ?_⟩
  · rintro rfl
    obtain ⟨ts, wf, canon, bytes, _⟩ := rleIsCanonical D
    exact ⟨ts, wf, canon, bytes⟩
  · rintro ⟨ts, wf, canon, rfl⟩
    obtain ⟨expands, _⟩ := decoderRule
    rw [expands ts wf] at decoded
    cases decoded
    exact rle_expand_of_canonical wf canon
  · obtain ⟨B, packed, rfl⟩ := pack_of_codec_eq_ok coded
    exact ⟨B, packed, dec_rle B⟩

end Sys2Proof.Machine

/-! PROOFS. The functions thr, pack8 and pack, and the packer's steps over a row of pixels (40_packer.md R55 to R63). -/
namespace Sys2Proof.Machine

/-! ### The thresholder (R55) -/

theorem thr_eq_false_iff (p : Byte) : thr p = false ↔ p = 0x00#8 := by
  simp [thr]

/-- A byte is not 0 exactly when one of its bits is 1. -/
theorem thr_eq_or (p : Byte) :
    thr p = (p.getLsbD 7 || p.getLsbD 6 || p.getLsbD 5 || p.getLsbD 4 || p.getLsbD 3 || p.getLsbD 2 ||
      p.getLsbD 1 || p.getLsbD 0) := by
  rw [Bool.eq_iff_iff, ← not_iff_not, Bool.not_eq_true, Bool.not_eq_true, thr_eq_false_iff]
  constructor
  · rintro rfl; rfl
  · intro clear
    simp only [Bool.or_eq_false_iff] at clear
    refine BitVec.eq_of_getLsbD_eq fun k hk => ?_
    rw [BitVec.getLsbD_zero]
    interval_cases k <;> simp only [clear]

/-- Settles O13: 0 is the one byte with no bit set. -/
theorem thrIsOrOfBits : Obligations.ThrIsOrOfBits := by
  unfold Obligations.ThrIsOrOfBits
  exact fun p => ⟨thr_eq_false_iff p, thr_eq_or p⟩

/-! ### A packed byte (R57, R61) -/

/-- Settles O16: eight steps of `sh`, each doubling and adding a bit; 255 is the most they reach, so nothing is cut off. -/
theorem pack8ClosedForm : Obligations.Pack8ClosedForm := by
  unfold Obligations.Pack8ClosedForm
  intro p0 p1 p2 p3 p4 p5 p6 p7
  have bit (p : Byte) : (thr p).toNat ≤ 1 := Bool.toNat_le _
  have := bit p0; have := bit p1; have := bit p2; have := bit p3
  have := bit p4; have := bit p5; have := bit p6; have := bit p7
  simp only [pack8, shiftIn, List.foldl_cons, List.foldl_nil, sh_toNat, BitVec.toNat_ofNat]
  omega

/-- The start value is shifted out by a whole group. -/
theorem shiftIn_start (a : Byte) {P : List Byte} (hP : 8 ≤ P.length) : shiftIn a P = shiftIn 0x00#8 P := by
  refine BitVec.eq_of_getLsbD_eq fun k hk => ?_
  rw [shiftIn_getLsbD a P hk, shiftIn_getLsbD 0x00#8 P hk, if_pos (hk.trans_le hP), if_pos (hk.trans_le hP)]

/-- Settles O17: `shiftIn_start`. -/
theorem startValueDoesNotMatter : Obligations.StartValueDoesNotMatter := by
  unfold Obligations.StartValueDoesNotMatter
  exact fun a P hP => shiftIn_start a hP

/-- Only which pixels are zero matters. -/
theorem shiftIn_eq_foldl_map (a : Byte) (P : List Byte) : shiftIn a P = (P.map thr).foldl sh a := by
  rw [shiftIn, List.foldl_map]

/-! ### The laws of pack (R63) -/

theorem packGroups_congr {P Q : List Byte} (h : P.map thr = Q.map thr) : packGroups P = packGroups Q := by
  have lengths : P.length = Q.length := by simpa using congrArg List.length h
  induction P using groups_induction generalizing Q with
  | short P hP => rw [packGroups_of_length_lt hP, packGroups_of_length_lt (lengths ▸ hP)]
  | group p0 p1 p2 p3 p4 p5 p6 p7 rest ih =>
    obtain ⟨q0, q1, q2, q3, q4, q5, q6, q7, restQ, rfl⟩ := exists_eq_group_cons (P := Q) (by simp at lengths; omega)
    simp only [List.map_cons, List.cons.injEq] at h
    obtain ⟨h0, h1, h2, h3, h4, h5, h6, h7, hrest⟩ := h
    rw [packGroups, packGroups, ih hrest (by simpa using lengths), pack8, pack8, shiftIn_eq_foldl_map,
      shiftIn_eq_foldl_map]
    simp only [List.map_cons, List.map_nil, h0, h1, h2, h3, h4, h5, h6, h7]

theorem pack_congr {P Q : List Byte} (h : P.map thr = Q.map thr) : pack P = pack Q := by
  have lengths : P.length = Q.length := by simpa using congrArg List.length h
  rw [pack, pack, packGroups_congr h, lengths]

theorem packGroups_append {P : List Byte} (hP : P.length % 8 = 0) (Q : List Byte) :
    packGroups (P ++ Q) = packGroups P ++ packGroups Q := by
  induction P using groups_induction with
  | short P short =>
    obtain rfl : P = [] := List.eq_nil_of_length_eq_zero (by omega)
    rfl
  | group p0 p1 p2 p3 p4 p5 p6 p7 rest ih =>
    simp only [List.length_cons] at hP
    simp only [List.cons_append, packGroups, ih (by omega)]

theorem eq_packGroups_of_pack_eq_ok {P B : List Byte} (h : pack P = .ok B) : P.length % 8 = 0 ∧ B = packGroups P := by
  rw [pack] at h
  split at h
  case isTrue hP => cases h; exact ⟨hP, rfl⟩
  case isFalse => cases h

theorem pack_append_ok {P Q A B : List Byte} (hA : pack P = .ok A) (hB : pack Q = .ok B) :
    pack (P ++ Q) = .ok (A ++ B) := by
  obtain ⟨hP, rfl⟩ := eq_packGroups_of_pack_eq_ok hA
  obtain ⟨hQ, rfl⟩ := eq_packGroups_of_pack_eq_ok hB
  rw [pack_of_length_mod_eq_zero (by rw [List.length_append]; omega), packGroups_append hP]

theorem packGroups_replicate_zero (k : Nat) : packGroups (List.replicate (8 * k) 0x00#8) = List.replicate k 0x00#8 := by
  induction k with
  | zero => rfl
  | succ k ih =>
    rw [Nat.mul_succ, Nat.add_comm, ← List.replicate_append_replicate, packGroups_append (by simp), ih,
      List.replicate_succ]
    rfl

theorem pack_replicate_zero (k : Nat) : pack (List.replicate (8 * k) 0x00#8) = .ok (List.replicate k 0x00#8) := by
  rw [pack_of_length_mod_eq_zero (by simp), packGroups_replicate_zero]

/-- Bit 7 - i of byte k is pixel 8k + i's. -/
theorem packGroups_getLsbD {P : List Byte} {k i : Nat} (hk : k < P.length / 8) (hi : i < 8) :
    ((packGroups P).getD k 0).getLsbD (7 - i) = thr (P.getD (8 * k + i) 0) := by
  obtain ⟨order, _⟩ := packedBitOrder
  rw [List.getD_eq_getElem?_getD, packGroups_getElem? P hk, Option.getD_some, order _ _ _ _ _ _ _ _ i hi]
  interval_cases i <;> rfl

/-- A byte is 0 exactly when its bits, counted from the most significant, are. -/
theorem eq_zero_iff_getLsbD_sub (b : Byte) : b = 0x00#8 ↔ ∀ i, i < 8 → b.getLsbD (7 - i) = false := by
  constructor
  · rintro rfl i _; simp
  · intro clear
    refine BitVec.eq_of_getLsbD_eq fun k hk => ?_
    have mirrored := clear (7 - k) (by omega)
    rw [Nat.sub_sub_self (Nat.le_of_lt_succ hk)] at mirrored
    rw [mirrored, BitVec.getLsbD_zero]

theorem packGroups_getElem?_eq_zero_iff {P : List Byte} {k : Nat} (hk : k < P.length / 8) :
    (packGroups P)[k]? = some 0x00#8 ↔ ∀ i, i < 8 → P[8 * k + i]? = some 0x00#8 := by
  have byte : k < (packGroups P).length := by rwa [packGroups_length]
  have whole : (packGroups P)[k]? = some 0x00#8 ↔ (packGroups P).getD k 0 = 0x00#8 := by
    rw [List.getD_eq_getElem?_getD, List.getElem?_eq_getElem byte, Option.some_inj, Option.getD_some]
  rw [whole, eq_zero_iff_getLsbD_sub]
  refine forall₂_congr fun i hi => ?_
  have pixel : 8 * k + i < P.length := by omega
  rw [packGroups_getLsbD hk hi, thr_eq_false_iff]
  simp [pixel]

/-- Settles O19: a result of pack is the packed groups of a row of whole groups, and each law is one about those. -/
theorem packLaws : Obligations.PackLaws := by
  unfold Obligations.PackLaws
  refine ⟨fun P B h => ?_, fun P Q => pack_congr, fun P Q hP => ⟨fun A B => pack_append_ok, fun h => ?_⟩,
    pack_replicate_zero, fun P B k h hk => ?_, fun P B k i h hk hi => ?_⟩
  · obtain ⟨_, rfl⟩ := eq_packGroups_of_pack_eq_ok h
    exact packGroups_length P
  · rw [pack_eq_error_iff] at h ⊢
    rw [List.length_append]
    omega
  · obtain ⟨_, rfl⟩ := eq_packGroups_of_pack_eq_ok h
    exact packGroups_getElem?_eq_zero_iff (by rwa [packGroups_length] at hk)
  · obtain ⟨_, rfl⟩ := eq_packGroups_of_pack_eq_ok h
    exact packGroups_getLsbD (by rwa [packGroups_length] at hk) hi

/-! ### The packer's steps over a row of pixels (R60) -/

theorem pkSteps_append (P Q : List Byte) (s : State) :
    pkSteps (P ++ Q) s = ((pkSteps P s).1 ++ (pkSteps Q (pkSteps P s).2).1, (pkSteps Q (pkSteps P s).2).2) := by
  induction P generalizing s with
  | nil => rfl
  | cons p P ih => simp only [List.cons_append, pkSteps, ih, List.append_assoc]

/-- Pixels that do not fill the group are shifted into ACC, and no byte is returned. -/
theorem pkSteps_short {P : List Byte} {s : State} (short : s.bitcnt.toNat + P.length < 8) :
    pkSteps P s = ([], { s with acc := shiftIn s.acc P, bitcnt := s.bitcnt + BitVec.ofNat 3 P.length }) := by
  induction P generalizing s with
  | nil => simp [pkSteps, shiftIn]
  | cons p P ih =>
    rw [List.length_cons] at short
    have inner : s.bitcnt ≠ 7#3 := by bv_omega
    have counted : (s.bitcnt + 1#3).toNat = s.bitcnt.toNat + 1 := by bv_omega
    have rest := ih (s := s.setPacker (sh s.acc (thr p)) (s.bitcnt + 1#3)) (by rw [setPacker_bitcnt, counted]; omega)
    rw [pkSteps, pkStep_inner p s inner, rest]
    simp [State.setPacker, shiftIn, BitVec.add_assoc, ← BitVec.ofNat_add, Nat.add_comm 1]

/-- A whole group: seven pixels are shifted in and the eighth completes the byte, whatever ACC held before. -/
theorem pkSteps_group (p0 p1 p2 p3 p4 p5 p6 p7 : Byte) {s : State} (boundary : s.bitcnt = 0#3) :
    pkSteps [p0, p1, p2, p3, p4, p5, p6, p7] s =
      ([pack8 p0 p1 p2 p3 p4 p5 p6 p7], { s with acc := 0x00#8, bitcnt := 0#3 }) := by
  have seven := pkSteps_short (P := [p0, p1, p2, p3, p4, p5, p6]) (s := s) (by simp [boundary])
  have byte : sh (shiftIn s.acc [p0, p1, p2, p3, p4, p5, p6]) (thr p7) = pack8 p0 p1 p2 p3 p4 p5 p6 p7 := by
    rw [← shiftIn_concat]; exact shiftIn_start s.acc le_rfl
  have split := pkSteps_append [p0, p1, p2, p3, p4, p5, p6] [p7] s
  rw [seven] at split
  refine split.trans ?_
  rw [pkSteps, pkStep_last _ _ (by simp [boundary]), byte]
  rfl

/-- Where the accumulator stands after a row of pixels from a group boundary: the last, partial group is in it. -/
def partialGroup (a : Byte) (P : List Byte) : Byte :=
  shiftIn (if P.length < 8 then a else 0x00#8) (P.drop (8 * (P.length / 8)))

theorem partialGroup_zero (P : List Byte) : partialGroup 0x00#8 P = shiftIn 0x00#8 (P.drop (8 * (P.length / 8))) := by
  rw [partialGroup, ite_self]

theorem pkSteps_eq (P : List Byte) {s : State} (boundary : s.bitcnt = 0#3) :
    pkSteps P s = (packGroups P, { s with acc := partialGroup s.acc P, bitcnt := BitVec.ofNat 3 (P.length % 8) }) := by
  induction P using groups_induction generalizing s with
  | short P hP =>
    rw [packGroups_of_length_lt hP, pkSteps_short (by simpa [boundary] using hP), partialGroup, if_pos hP,
      Nat.div_eq_of_lt hP, Nat.mod_eq_of_lt hP, boundary, BitVec.zero_add]
    rfl
  | group p0 p1 p2 p3 p4 p5 p6 p7 rest ih =>
    have split := pkSteps_append [p0, p1, p2, p3, p4, p5, p6, p7] rest s
    rw [pkSteps_group _ _ _ _ _ _ _ _ boundary, ih rfl] at split
    have held : partialGroup s.acc (p0 :: p1 :: p2 :: p3 :: p4 :: p5 :: p6 :: p7 :: rest) = partialGroup 0x00#8 rest := by
      have groups : 8 * ((rest.length + 8) / 8) = 8 * (rest.length / 8) + 8 := by omega
      rw [partialGroup_zero, partialGroup, if_neg (by simp)]
      simp only [List.length_cons, groups, List.drop_succ_cons]
    have counted : (p0 :: p1 :: p2 :: p3 :: p4 :: p5 :: p6 :: p7 :: rest).length % 8 = rest.length % 8 := by
      simp only [List.length_cons, Nat.add_assoc, Nat.reduceAdd, Nat.add_mod_right]
    rw [held, counted]
    exact split

/-- Settles O20: the packed groups, and in ACC the rest. -/
theorem pkStepsPackGroups : Obligations.PkStepsPackGroups := by
  unfold Obligations.PkStepsPackGroups
  refine ⟨fun P s boundary => ?_, fun p0 p1 p2 p3 p4 p5 p6 p7 s boundary => ?_⟩
  · rw [pkSteps_eq P boundary]
    have count : (BitVec.ofNat 3 (P.length % 8)).toNat = P.length % 8 := by rw [BitVec.toNat_ofNat]; omega
    exact ⟨rfl, packGroups_length P, count, _, rfl⟩
  · have seven := pkSteps_short (P := [p0, p1, p2, p3, p4, p5, p6]) (s := s) (by simp [boundary])
    exact ⟨by rw [seven], pkSteps_group p0 p1 p2 p3 p4 p5 p6 p7 boundary⟩

/-! ### The pseudo-instructions (R54) and the all-background image (90_conflicts.md C1) -/

theorem thr_pix (b : Byte) (i : Nat) : thr (pix b i) = b.getLsbD i := by
  rw [pix]
  cases b.getLsbD i <;> rfl

theorem pack_pix8 (b : Byte) : pack (pix8 b) = .ok [b] := by
  have packed : packGroups (pix8 b) = [b] := by
    refine congrArg (fun c => [c]) (BitVec.eq_of_getLsbD_eq fun k hk => ?_)
    rw [pack8, shiftIn_getLsbD _ _ hk]
    interval_cases k <;> exact thr_pix b _
  rw [pack_of_length_mod_eq_zero (by simp [pix8]), packed]

/-- Settles O60: the expansions are R54's text; the byte by its bits. -/
theorem pseudoInstructions : Obligations.PseudoInstructions := by
  unfold Obligations.PseudoInstructions
  refine ⟨fun k n => rfl, fun k => rfl, fun b => ?_, pack_pix8⟩
  rw [expandLine, BitVec.ofNat_toNat, BitVec.setWidth_eq]
  rfl

/-- Zero pixels in whole groups are one zero run of packed bytes. -/
theorem codec_replicate_zero (k : Nat) : codec 0b00#2 (List.replicate (8 * k) 0x00#8) = .ok (encodedRuns k) := by
  rw [codec, show firstStage 0b00#2 _ = pack _ from rfl, pack_replicate_zero, ← rle_replicate_zero]
  rfl

/-- Settles O54: 128 by 64 pixels are 1024 groups. -/
theorem allBackgroundImage : Obligations.AllBackgroundImage := by
  unfold Obligations.AllBackgroundImage
  intro P width height
  have pixels : P.pixels = 8 * 1024 := by rw [Config.Params.pixels, width, height]
  rw [pixels, codec_replicate_zero]
  exact congrArg Except.ok (by decide)

end Sys2Proof.Machine

/-! PROOFS. The two-byte container, the output words, and what one step pushes and leaves unchanged (30_encoding.md R42 to
R46; 42_commands.md R74 to R88; 60_exceptions.md R99). -/
namespace Sys2Proof

/-! ### The container (R42, R43) -/

/-- The two bytes of the container, least significant first, are the word. -/
theorem container_toNat (w : CmdWord) :
    (w.extractLsb' 0 8).toNat + 256 * ((w.extractLsb' 8 2).setWidth 8).toNat = w.toNat := by
  rw [BitVec.toNat_setWidth, BitVec.extractLsb'_toNat, BitVec.extractLsb'_toNat, Nat.shiftRight_eq_div_pow,
    Nat.shiftRight_eq_div_pow]
  omega

theorem decodeBytes_encodeBytes (i : Instr) (rest : List Byte) : decodeBytes (encodeBytes i ++ rest) = .ok (i, rest) := by
  simp only [encodeBytes, List.cons_append, List.nil_append, decodeBytes, container_toNat, cmdWordOfNat_toNat,
    decode_encode]

end Sys2Proof

namespace Sys2Proof.Encoding

open Sys2Proof.Machine

/-- Settles O6: `decode_encode`, and the container carries the word. -/
theorem decodeOfEncode : Obligations.DecodeOfEncode := by
  unfold Obligations.DecodeOfEncode
  exact fun i _ => ⟨decode_encode i, decodeBytes_encodeBytes i⟩

/-- Settles O7: `encode_of_decode`. -/
theorem encodeOfDecode : Obligations.EncodeOfDecode := by
  unfold Obligations.EncodeOfDecode
  exact fun _ _ => encode_of_decode

/-- Settles O10: the words are literals, so the decoder computes. -/
theorem tableWordsDecode : Obligations.TableWordsDecode := by
  unfold Obligations.TableWordsDecode
  exact ⟨rfl, rfl, rfl, rfl, rfl, rfl, rfl, rfl⟩

end Sys2Proof.Encoding

namespace Sys2Proof.Machine

/-- Settles O42: the word at the head of IN is accepted; a command's word offered through the container is that word. -/
theorem stepRunsDecoded : Obligations.StepRunsDecoded := by
  unfold Obligations.StepRunsDecoded
  have runs (s : State) (w : CmdWord) (rest : List HostInput) (i : Instr) (hinp : s.inp = .word w :: rest)
      (hw : decode w = .ok i) : step s = exec i { s with inp := rest, cmdidx := s.cmdidx + 1 } := by
    rw [step_word hinp, accept_command _ w i hw]; rfl
  refine ⟨runs, fun s i => ?_⟩
  rw [State.withFetchWord, tableWord_toNat]
  exact runs (s.offer (encode i)) (encode i) s.inp i rfl (decode_encode i)

/-! ### The output words as bits (R46, R52) -/

/-- The sink reads a word by its kind (bits 9 and 8) and its data. -/
theorem ofBits_append (kind : BitVec 2) (d : Byte) :
    OutWord.ofBits (kind ++ d) =
      if kind = 0b00#2 then some (.byte d)
      else if kind = 0b01#2 then (if d = 0x00#8 then some .eof else none)
      else if kind = 0b10#2 then (AbortReason.ofCode d).map OutWord.abort
      else none := by
  have hkind : (kind ++ d : OutBits).extractLsb' 8 2 = kind := op_append kind d
  have hdata : (kind ++ d : OutBits).extractLsb' 0 8 = d := data_append kind d
  rw [OutWord.ofBits, hkind, hdata]
  cases AbortReason.ofCode d <;> rfl

theorem ofCode_code (r : AbortReason) : AbortReason.ofCode r.code = some r := by
  match r with
  | .exc .invalidInputLength => rfl
  | .exc .illegalCommand => rfl
  | .exc .configWhileBusy => rfl
  | .cancelled => rfl

/-- The codes in use are 0x01 to 0x04. -/
theorem ofCode_isNone_iff (c : Byte) : (AbortReason.ofCode c).isNone = true ↔ c.toNat = 0 ∨ 5 ≤ c.toNat := by
  simp only [AbortReason.ofCode, ← BitVec.toNat_inj, BitVec.toNat_ofNat, Nat.reducePow, Nat.reduceMod]
  split_ifs <;> simp <;> omega

theorem AbortReason.code_range (r : AbortReason) : 1 ≤ r.code.toNat ∧ r.code.toNat ≤ 4 := by
  match r with
  | .exc .invalidInputLength => decide
  | .exc .illegalCommand => decide
  | .exc .configWhileBusy => decide
  | .cancelled => decide

/-- Every output word is a kind and its data; the kind 0b11 is not used. -/
theorem OutWord.bits_eq_append (o : OutWord) : ∃ (kind : BitVec 2) (d : Byte), o.bits = kind ++ d ∧ kind ≠ 0b11#2 ∧
    OutWord.ofBits (kind ++ d) = some o := by
  cases o with
  | byte b => exact ⟨0b00#2, b, rfl, by decide, by rw [ofBits_append]; rfl⟩
  | eof => exact ⟨0b01#2, 0x00#8, rfl, by decide, by rw [ofBits_append]; rfl⟩
  | abort r => exact ⟨0b10#2, r.code, rfl, by decide, by rw [ofBits_append, ofCode_code]; rfl⟩

theorem ofBits_isNone_iff (b : OutBits) :
    (OutWord.ofBits b).isNone = true ↔ (0x101 ≤ b.toNat ∧ b.toNat ≤ 0x1FF) ∨ b.toNat = 0x200 ∨ 0x205 ≤ b.toNat := by
  have fields : CmdWord.op b ++ CmdWord.data b = b := op_data_eq b
  generalize CmdWord.op b = kind at fields
  generalize CmdWord.data b = d at fields
  subst fields
  have number := toNat_op_append kind d
  have data_lt : d.toNat < 256 := d.isLt
  have zero_iff : d = 0x00#8 ↔ d.toNat = 0 := BitVec.toNat_inj.symm
  have codes := ofCode_isNone_iff d
  rw [ofBits_append, number]
  match kind with
  | 0b00#2 => simp; omega
  | 0b01#2 =>
    by_cases zero : d.toNat = 0
    · simp [zero_iff, zero]
    · simp [zero_iff, zero]; omega
  | 0b10#2 => simp [codes]; omega
  | 0b11#2 => simp; omega

/-! ### What a step pushes (R46, R88) -/

/-- Who pushes a word that is not a BYTE: EOF is END's, an exception's ABORT is fault entry's, Cancelled is CLR's. -/
def PushedBy (w : CmdWord) (s t : State) : OutWord → Prop
  | .byte _ => True
  | .eof => decode w = .ok .endFrame ∧ t.phase = .idle
  | .abort (.exc e) => s.phase ≠ .fault ∧ t.phase = .fault ∧ t.cause = .exc e
  | .abort .cancelled => decode w = .ok .clr ∧ s.phase = .busy

theorem PushedBy.bytes (w : CmdWord) (s t : State) (bs : List Byte) : ∀ o ∈ bs.map OutWord.byte, PushedBy w s t o := by
  simp [PushedBy]

/-- The step only added to OUT, at most two words (R88), each pushed by the command that may push it (R46). -/
def PushesByCommand (w : CmdWord) (s t : State) : Prop :=
  ∃ ws : List OutWord, t.out = s.out ++ ws ∧ ws.length ≤ 2 ∧ ∀ o ∈ ws, PushedBy w s t o

theorem PushesByCommand.of_out_eq (w : CmdWord) {s t : State} (same : t.out = s.out) : PushesByCommand w s t :=
  ⟨[], by simp [same], by simp, by simp⟩

theorem PushesByCommand.raise (w : CmdWord) {s : State} (outside : s.phase ≠ .fault) (e : Exc) :
    PushesByCommand w s (s.countCommand.raise e) :=
  ⟨[.abort (.exc e)], rfl, by simp, by simp [PushedBy, outside]⟩

theorem accept_pushes {w : CmdWord} {s t : State} (h : accept w s = .next t) : PushesByCommand w s t := by
  rcases accept_cases s w t h with ⟨_, _, rfl⟩ | ⟨_, _, rfl⟩ | ⟨outside, _, rfl⟩ | ⟨_, d, _, rfl⟩ | ⟨outside, _, _, rfl⟩ |
    ⟨_, endFrame, _, rfl⟩ | ⟨_, m, _, rfl⟩ | ⟨busy, _, rfl⟩ | ⟨busy, clr, rfl⟩ | ⟨_, _, rfl⟩
  · exact .of_out_eq w rfl
  · exact .of_out_eq w rfl
  · exact .raise w outside _
  · obtain ⟨_, _, _, _, bs, le, effect⟩ := dataEffect_frame d s.countCommand
    refine ⟨bs.map OutWord.byte, by rw [effect]; rfl, by simpa using le, PushedBy.bytes w s _ bs⟩
  · exact .raise w outside _
  · rcases closeFrame_cases s.countCommand with ⟨_, _, closed⟩ | ⟨_, closed⟩
    · exact ⟨[.byte s.cnt, .eof], by rw [closed]; rfl, by simp, by simp [PushedBy, endFrame]⟩
    · exact ⟨[.eof], by rw [closed]; rfl, by simp, by simp [PushedBy, endFrame]⟩
  · exact .of_out_eq w rfl
  · exact .raise w (by simp [busy]) _
  · exact ⟨[.abort .cancelled], rfl, by simp, by simp [PushedBy, clr, busy]⟩
  · exact .of_out_eq w rfl

theorem out_eq_append_pushed {w : CmdWord} {s t : State} (h : accept w s = .next t) : t.out = s.out ++ pushed s t := by
  obtain ⟨ws, out, _⟩ := accept_pushes h
  rw [pushed_of_out out, out]

theorem pushed_length_le_two {w : CmdWord} {s t : State} (h : accept w s = .next t) : (pushed s t).length ≤ 2 := by
  obtain ⟨ws, out, le, _⟩ := accept_pushes h
  rwa [pushed_of_out out]

theorem pushedBy_of_mem_pushed {w : CmdWord} {s t : State} (h : accept w s = .next t) {o : OutWord}
    (ho : o ∈ pushed s t) : PushedBy w s t o := by
  obtain ⟨ws, out, _, by_command⟩ := accept_pushes h
  rw [pushed_of_out out] at ho
  exact by_command o ho

/-- Settles O11: the bits by kind and data; who pushes what by `accept_pushes`. -/
theorem outputWords : Obligations.OutputWords := by
  unfold Obligations.OutputWords
  refine ⟨fun b => ?_, rfl, fun r => ?_, fun o => ?_, ofBits_isNone_iff, fun w s t h => ⟨fun mem => ?_, fun e mem => ?_,
    fun mem => ?_⟩⟩
  · have number := toNat_op_append 0b00#2 b
    rw [OutWord.bits, number]; simp
  · have number := toNat_op_append 0b10#2 r.code
    have range := r.code_range
    rw [OutWord.bits, number]; simp; omega
  · obtain ⟨kind, d, bits, unused, read⟩ := o.bits_eq_append
    have hkind : (kind ++ d : OutBits).extractLsb' 8 2 = kind := op_append kind d
    rw [bits, hkind]
    exact ⟨unused, read⟩
  · obtain ⟨endFrame, idle⟩ := pushedBy_of_mem_pushed h mem
    exact ⟨(decode_eq_ok_iff w .endFrame).mp endFrame, idle⟩
  · exact pushedBy_of_mem_pushed h mem
  · obtain ⟨clr, busy⟩ := pushedBy_of_mem_pushed h mem
    exact ⟨(decode_eq_ok_iff w .clr).mp clr, busy⟩

/-! ### DATA, by stage (R75) -/

/-- DATA in the three cases of the first stage: a byte as it stands, a pixel that completes no group, one that does. -/
theorem dataEffect_cases (d : Byte) (s : State) :
    (bypPack s.mode = true ∧ dataEffect d s = rleStage d { s with phase := .busy }) ∨
    (bypPack s.mode = false ∧ s.bitcnt ≠ 7#3 ∧
      dataEffect d s = { s with phase := .busy, acc := sh s.acc (thr d), bitcnt := s.bitcnt + 1#3 }) ∨
    (bypPack s.mode = false ∧ s.bitcnt = 7#3 ∧
      dataEffect d s = rleStage (sh s.acc (thr d)) { s with phase := .busy, acc := 0x00#8, bitcnt := 0#3 }) := by
  cases packing : bypPack s.mode with
  | true => exact .inl ⟨rfl, dataEffect_byte d s packing⟩
  | false =>
    by_cases last : s.bitcnt = 7#3
    · exact .inr (.inr ⟨rfl, last, dataEffect_last d s packing last⟩)
    · exact .inr (.inl ⟨rfl, last, dataEffect_inner d s packing last⟩)

/-- The second stage writes RUN, CNT and OUT alone, and RUN and CNT only when it encodes; two words mean that a run is
closed by a literal (case E of R65). -/
theorem rleStage_frame (a : Byte) (s : State) :
    ∃ (bs : List Byte) (r : Bool) (c : Byte),
      rleStage a s = { s with run := r, cnt := c, out := s.out ++ bs.map OutWord.byte } ∧
      (bypRle s.mode = true → r = s.run ∧ c = s.cnt) ∧ (bs.length = 2 → bypRle s.mode = false ∧ s.run = true) := by
  cases encoding : bypRle s.mode with
  | true => exact ⟨[a], s.run, s.cnt, rleStage_raw a s encoding, fun _ => ⟨rfl, rfl⟩, by simp⟩
  | false =>
    rw [rleStage_encoded a s encoding]
    rcases rlStep_cases a s with ⟨_, _, step⟩ | ⟨_, _, step⟩ | ⟨run, _, _, step⟩ | ⟨run, _, _, step⟩ | ⟨run, _, step⟩
    · exact ⟨[a], s.run, s.cnt, step, by simp, by simp⟩
    · exact ⟨[0x00#8], true, 0x01#8, step, by simp, by simp⟩
    · exact ⟨[], true, s.cnt + 0x01#8, by simp [step, State.setRle], by simp, by simp⟩
    · exact ⟨[0xFF#8], false, 0x00#8, step, by simp, by simp⟩
    · exact ⟨[s.cnt, a], false, 0x00#8, by rw [step, emit_emit]; rfl, by simp, by simp [run]⟩

theorem dataEffect_two_words {d : Byte} {s : State} {bs : List Byte}
    (out : (dataEffect d s).out = s.out ++ bs.map OutWord.byte) (two : bs.length = 2) : bypRle s.mode = false ∧ s.run = true := by
  have second {a : Byte} {u : State} (effect : dataEffect d s = rleStage a u) (mode : u.mode = s.mode)
      (run : u.run = s.run) (hout : u.out = s.out) : bypRle s.mode = false ∧ s.run = true := by
    obtain ⟨cs, r, c, stage, _, closes⟩ := rleStage_frame a u
    rw [effect, stage] at out
    have same : cs.length = bs.length := by simpa [hout] using congrArg List.length out
    rw [← mode, ← run]
    exact closes (same.trans two)
  rcases dataEffect_cases d s with ⟨_, effect⟩ | ⟨_, _, effect⟩ | ⟨_, _, effect⟩
  · exact second effect rfl rfl rfl
  · rw [effect] at out
    have none : bs.length = 0 := by simpa using congrArg List.length out
    omega
  · exact second effect rfl rfl rfl

/-- Settles O43: outside FAULT by the cases of `dataEffect_cases`, each with the second stage's frame. -/
theorem dataFrame : Obligations.DataFrame := by
  unfold Obligations.DataFrame
  intro d s t h
  by_cases inFault : s.phase = .fault
  · rw [show exec (.data d) s = .next s from execData_fault s d inFault] at h
    cases h
    exact ⟨rfl, rfl, rfl, rfl, rfl, ⟨[], by simp⟩, fun _ => ⟨rfl, rfl⟩, fun _ => ⟨rfl, rfl⟩, fun _ _ => ⟨rfl, rfl, rfl⟩,
      fun _ => rfl⟩
  · rw [show exec (.data d) s = .next (dataEffect d s) from execData_busy s d inFault] at h
    cases h
    rcases dataEffect_cases d s with ⟨bypassed, effect⟩ | ⟨packing, _, effect⟩ | ⟨packing, last, effect⟩
    · obtain ⟨bs, r, c, stage, kept, _⟩ := rleStage_frame d { s with phase := .busy }
      rw [effect, stage]
      exact ⟨rfl, rfl, rfl, rfl, rfl, ⟨bs, rfl⟩, fun _ => ⟨rfl, rfl⟩, kept,
        fun packing => absurd (bypassed.symm.trans packing) (by decide), fun fault => absurd fault inFault⟩
    · rw [effect]
      exact ⟨rfl, rfl, rfl, rfl, rfl, ⟨[], by simp⟩, fun bypassed => absurd (packing.symm.trans bypassed) (by decide),
        fun _ => ⟨rfl, rfl⟩, fun _ _ => ⟨rfl, rfl, rfl⟩, fun fault => absurd fault inFault⟩
    · obtain ⟨bs, r, c, stage, kept, _⟩ :=
        rleStage_frame (sh s.acc (thr d)) { s with phase := .busy, acc := 0x00#8, bitcnt := 0#3 }
      rw [effect, stage]
      exact ⟨rfl, rfl, rfl, rfl, rfl, ⟨bs, rfl⟩, fun bypassed => absurd (packing.symm.trans bypassed) (by decide), kept,
        fun _ inner => absurd last inner, fun fault => absurd fault inFault⟩

/-! ### How many words each command pushes (R88) -/

theorem pushed_in_fault {w : CmdWord} {s t : State} (inFault : s.phase = .fault) (h : accept w s = .next t) :
    pushed s t = [] := by
  refine pushed_of_out (ws := []) ?_
  by_cases hw : w = 0x300#10
  · rw [hw, accept_clr_in_fault inFault] at h; cases h; simp
  · rw [accept_fault (decode_ne_clr hw) inFault] at h; cases h; simp

/-- Settles O40: the step of each command is known outside FAULT, and with it the words. -/
theorem atMostTwoWords : Obligations.AtMostTwoWords := by
  unfold Obligations.AtMostTwoWords
  intro w s t h
  refine ⟨out_eq_append_pushed h, pushed_length_le_two h, fun inFault => pushed_in_fault inFault h, fun outside =>
    ⟨fun d data => ?_, fun endFrame closes => ?_, fun inFault => ?_, fun m cfg idle => ?_, fun clr => ?_⟩⟩
  · obtain rfl := next_of_decode h data (execData_busy s.countCommand d outside)
    obtain ⟨_, _, _, _, bs, _, effect⟩ := dataEffect_frame d s.countCommand
    have out : (dataEffect d s.countCommand).out = s.out ++ bs.map OutWord.byte := by rw [effect]; rfl
    rw [pushed_of_out out]
    refine ⟨⟨bs, rfl⟩, fun two => dataEffect_two_words (s := s.countCommand) out (by simpa using two), fun raw => ?_⟩
    obtain ⟨passes, _⟩ := dataExecutes d s.countCommand outside
    have passed := (execData_busy s.countCommand d outside).symm.trans (passes raw)
    rw [Host.Outcome.next.injEq] at passed
    rw [passed] at out
    simpa using (congrArg List.length out).symm
  · cases bad : lengthBad s.countCommand with
    | true =>
      obtain rfl := next_of_decode h endFrame (execEnd_bad s.countCommand outside bad)
      exact absurd rfl closes
    | false =>
      obtain rfl := next_of_decode h endFrame (execEnd_closes s.countCommand outside bad)
      rcases closeFrame_cases s.countCommand with ⟨_, run, closed⟩ | ⟨_, closed⟩
      · exact .inr ⟨run, pushed_of_out (by rw [closed]; rfl)⟩
      · exact .inl (pushed_of_out (by rw [closed]; rfl))
  · obtain ⟨e, _, rfl⟩ := exists_raises_of_fault outside h inFault
    exact ⟨e, pushed_of_out rfl⟩
  · obtain rfl := next_of_decode h cfg (execCfg_idle s.countCommand m idle)
    exact pushed_of_out (by simp)
  · by_cases busy : s.phase = .busy
    · obtain rfl := next_of_decode h clr (execClr_busy s.countCommand busy)
      rw [if_pos busy]
      exact pushed_of_out rfl
    · obtain rfl := next_of_decode h clr (execClr_closed s.countCommand busy)
      rw [if_neg busy]
      exact pushed_of_out (by simp)

/-! ### Fault entry, END, CFG and CLR (R80 to R83, R99) -/

/-- Settles O37: a word that takes the block into FAULT is fault entry (`exists_raises_of_fault`), and there it stays. -/
theorem faultEntryIsPrecise : Obligations.FaultEntryIsPrecise := by
  unfold Obligations.FaultEntryIsPrecise
  refine ⟨raise_eq, fun w s t outside h inFault => ?_⟩
  obtain ⟨e, _, rfl⟩ := exists_raises_of_fault outside h inFault
  exact ⟨e, rfl, pushed_of_out rfl, rfl, rfl, rfl, rfl, rfl, rfl, rfl, fun v hv => accept_fault (decode_ne_clr hv) rfl⟩

/-- What a command can do: nothing (discarded), DATA's effect, fault entry, a closed frame, MODE written, or the frame
cleared with or without the ABORT word. -/
theorem exec_cases {i : Instr} {s t : State} (h : exec i s = .next t) :
    t = s ∨ (∃ d, t = dataEffect d s) ∨ (∃ e, t = s.raise e) ∨ t = closeFrame s ∨ (∃ m, t = s.setMode m) ∨
    t = (s.emitAbort .cancelled).clearFrame ∨ t = s.clearFrame := by
  cases i with
  | data d =>
    by_cases inFault : s.phase = .fault
    · rw [exec, execData_fault s d inFault] at h; cases h; simp
    · rw [exec, execData_busy s d inFault] at h; cases h; exact .inr (.inl ⟨d, rfl⟩)
  | endFrame =>
    by_cases inFault : s.phase = .fault
    · rw [exec, execEnd_fault s inFault] at h; cases h; simp
    · cases bad : lengthBad s
      · rw [exec, execEnd_closes s inFault bad] at h; cases h; simp
      · rw [exec, execEnd_bad s inFault bad] at h; cases h; exact .inr (.inr (.inl ⟨_, rfl⟩))
  | cfg m =>
    cases phase : s.phase
    · rw [exec, execCfg_idle s m phase] at h; cases h; exact .inr (.inr (.inr (.inr (.inl ⟨m, rfl⟩))))
    · rw [exec, execCfg_busy s m phase] at h; cases h; exact .inr (.inr (.inl ⟨_, rfl⟩))
    · rw [exec, execCfg_fault s m phase] at h; cases h; simp
  | clr =>
    by_cases busy : s.phase = .busy
    · rw [exec, execClr_busy s busy] at h; cases h; simp
    · rw [exec, execClr_closed s busy] at h; cases h; simp

theorem closeFrame_out_prefix (s : State) : s.out <+: (closeFrame s).out := by
  rcases closeFrame_cases s with ⟨_, _, closed⟩ | ⟨_, closed⟩ <;> rw [closed] <;> exact List.prefix_append _ _

theorem dataEffect_out_prefix (d : Byte) (s : State) : s.out <+: (dataEffect d s).out := by
  obtain ⟨_, _, _, _, _, _, effect⟩ := dataEffect_frame d s
  rw [effect]; exact List.prefix_append _ _

theorem exec_keeps {i : Instr} {s t : State} (h : exec i s = .next t) :
    t.cmdidx = s.cmdidx ∧ t.inp = s.inp ∧ s.out <+: t.out ∧ s.faults <+: t.faults := by
  rcases exec_cases h with rfl | ⟨d, rfl⟩ | ⟨e, rfl⟩ | rfl | ⟨m, rfl⟩ | rfl | rfl
  · simp
  · simp [dataEffect_out_prefix]
  · simp
  · simp [closeFrame_out_prefix, closeFrame_frame]
  · simp
  · simp
  · simp

theorem endFrame_keeps {s t : State} (h : exec .endFrame s = .next t) :
    t.mode = s.mode ∧ t.acc = s.acc ∧ t.bitcnt = s.bitcnt ∧
    (bypRle s.mode = true ∨ s.run = false → t.run = s.run ∧ t.cnt = s.cnt) := by
  by_cases inFault : s.phase = .fault
  · rw [exec, execEnd_fault s inFault] at h; cases h
    exact ⟨rfl, rfl, rfl, fun _ => ⟨rfl, rfl⟩⟩
  · cases bad : lengthBad s
    · rw [exec, execEnd_closes s inFault bad] at h; cases h
      obtain ⟨acc, bitcnt⟩ := closeFrame_packer s
      obtain ⟨mode, _⟩ := closeFrame_frame s
      exact ⟨mode, acc, bitcnt, fun plain => by rw [closeFrame_plain s plain]; exact ⟨rfl, rfl⟩⟩
    · rw [exec, execEnd_bad s inFault bad] at h; cases h
      exact ⟨rfl, rfl, rfl, fun _ => ⟨rfl, rfl⟩⟩

theorem cfg_keeps {m : Mode} {s t : State} (h : exec (.cfg m) s = .next t) :
    t.acc = s.acc ∧ t.bitcnt = s.bitcnt ∧ t.run = s.run ∧ t.cnt = s.cnt ∧ (s.phase ≠ .idle → t.mode = s.mode) ∧
    (s.phase = .idle → t.phase = s.phase ∧ t.cause = s.cause ∧ t.out = s.out ∧ t.faults = s.faults) := by
  cases phase : s.phase
  · rw [exec, execCfg_idle s m phase] at h; cases h; simp [phase]
  · rw [exec, execCfg_busy s m phase] at h; cases h; simp
  · rw [exec, execCfg_fault s m phase] at h; cases h; simp

theorem clr_keeps {s t : State} (h : exec .clr s = .next t) :
    t.mode = s.mode ∧ t.faults = s.faults ∧ (s.phase ≠ .busy → t.out = s.out) := by
  by_cases busy : s.phase = .busy
  · rw [exec, execClr_busy s busy] at h; cases h; simp [busy]
  · rw [exec, execClr_closed s busy] at h; cases h; simp

/-- Settles O44: one lemma for what all commands keep, and one per command. -/
theorem systemFrame : Obligations.SystemFrame := by
  unfold Obligations.SystemFrame
  exact ⟨fun _ _ _ => exec_keeps, fun _ _ => endFrame_keeps, fun _ _ _ => cfg_keeps, fun _ _ => clr_keeps⟩

end Sys2Proof.Machine

/-! PROOFS. Clock edges at the ports: the reset event, the output queue, readiness and the fault output (20_memory.md R41;
60_exceptions.md R97; 70_reset_and_hazards.md R109, R118). -/
namespace Sys2Proof.Machine

/-! ### Readiness and the kinds of edge (R41) -/

theorem inReady_eq_true_iff (P : Config.Params) (p : PortState) :
    p.inReady P = true ↔ p.wait = 0 ∧ p.oq.length + 2 ≤ P.oqDepth := by
  simp [PortState.inReady]

theorem valid_iff (P : Config.Params) : P.valid = true ↔ 2 ≤ P.oqDepth ∧ 1 ≤ P.cyclesPerCmd := by
  simp [Config.Params.valid]

/-- An edge at which no word is accepted only moves the queue and counts a cycle. -/
theorem clockEdge_waits (P : Config.Params) {i : PortIn} {p : PortState} (hrst : i.rst = false)
    (waits : i.inWord = none ∨ p.inReady P = false) :
    clockEdge P i p = .next { p.transfer i.outReady with wait := p.wait - 1 } := by
  rcases waits with none | busy
  · simp [clockEdge, hrst, none]
  · cases hw : i.inWord <;> simp [clockEdge, hrst, hw, busy]

/-- An edge at which a word is accepted. -/
theorem clockEdge_accepts (P : Config.Params) {i : PortIn} {p : PortState} {w : CmdWord} (hrst : i.rst = false)
    (offered : i.inWord = some w) (ready : p.inReady P = true) :
    clockEdge P i p = .next { p.transfer i.outReady with
      core := feed p.core w, oq := (p.transfer i.outReady).oq ++ pushed p.core (feed p.core w),
      wait := P.cyclesPerCmd - 1 } := by
  have accepted := accept_eq_next_feed p.core w
  simp [clockEdge, hrst, offered, ready, PortState.acceptWord, accepted]

theorem accepts_or_waits (P : Config.Params) (i : PortIn) (p : PortState) :
    (∃ w, i.inWord = some w ∧ p.inReady P = true) ∨ (i.inWord = none ∨ p.inReady P = false) := by
  cases i.inWord <;> cases p.inReady P <;> simp

theorem clockEdge_completes (P : Config.Params) (i : PortIn) (p : PortState) : ∃ q, clockEdge P i p = .next q := by
  cases hrst : i.rst with
  | true => exact ⟨_, clockEdge_reset P p hrst⟩
  | false =>
    rcases accepts_or_waits P i p with ⟨w, offered, ready⟩ | waits
    · exact ⟨_, clockEdge_accepts P hrst offered ready⟩
    · exact ⟨_, clockEdge_waits P hrst waits⟩

/-! ### The reset event (R109, R110) -/

theorem reset_inReady {P : Config.Params} (valid : P.valid = true) : PortState.reset.inReady P = true := by
  obtain ⟨depth, _⟩ := (valid_iff P).mp valid
  exact (inReady_eq_true_iff P _).mpr ⟨rfl, by simpa [PortState.reset] using depth⟩

/-- Settles O56: at the ports reset is the state after reset; on IN it is refused once a command has been accepted. -/
theorem resetEvent : Obligations.ResetEvent := by
  unfold Obligations.ResetEvent
  refine ⟨fun P i p hrst => ?_, fun s rest hinp => ⟨fun begun => ?_, fun fresh => ?_⟩⟩
  · exact ⟨PortState.reset, clockEdge_reset P p hrst, rfl, rfl, rfl, rfl, rfl, rfl, rfl, rfl, rfl, rfl, reset_inReady⟩
  · simp [step, takeInput, hinp, State.midRun, begun]
  · simp [step, takeInput, hinp, State.midRun, fresh, State.resetWith]

/-! ### The output queue (R22, R35, R41) -/

theorem reset_portInv (P : Config.Params) : PortState.reset.Inv P := ⟨rfl, Nat.zero_le _⟩

/-- A word enters the queue behind the ones that are there, and two free entries are enough for a step's words (R88). -/
theorem PortState.Inv.accepts {P : Config.Params} {p : PortState} (inv : p.Inv P) (ready : p.inReady P = true)
    (outReady : Bool) {w : CmdWord} {c : State} (h : accept w p.core = .next c) (n : Nat) :
    PortState.Inv P { p.transfer outReady with
      core := c, oq := (p.transfer outReady).oq ++ pushed p.core c, wait := n } where
  history := by
    rw [← List.append_assoc, transfer_keeps_order, ← inv.history]
    exact out_eq_append_pushed h
  depth := by
    obtain ⟨_, free⟩ := (inReady_eq_true_iff P p).mp ready
    have moved := transfer_oq_le p outReady
    have two := pushed_length_le_two h
    rw [List.length_append]
    omega

theorem PortState.Inv.waits {P : Config.Params} {p : PortState} (inv : p.Inv P) (outReady : Bool) (n : Nat) :
    PortState.Inv P { p.transfer outReady with wait := n } where
  history := by rw [transfer_core, transfer_keeps_order]; exact inv.history
  depth := (transfer_oq_le p outReady).trans inv.depth

/-- Settles O57: by the kind of edge; the transfer moves the oldest word and keeps the order. -/
theorem queueLosesNothing : Obligations.QueueLosesNothing := by
  unfold Obligations.QueueLosesNothing
  intro P i p q _ inv h
  rcases clockEdge_cases p P i q h with ⟨hrst, rfl⟩ | ⟨hrst, w, c, _, ready, accepted, rfl⟩ | ⟨hrst, _, rfl⟩
  · exact ⟨reset_portInv P, fun running => by simp [hrst] at running, fun _ => ⟨rfl, rfl⟩⟩
  · refine ⟨inv.accepts ready i.outReady accepted _, fun _ => ⟨transfer_taken p i.outReady, ?_, ?_⟩,
      fun resets => by simp [hrst] at resets⟩
    · exact transfer_taken p i.outReady ▸ List.prefix_append _ _
    · dsimp only
      rw [← List.append_assoc, transfer_keeps_order]
      exact List.prefix_append _ _
  · refine ⟨inv.waits i.outReady _, fun _ => ⟨transfer_taken p i.outReady, ?_, ?_⟩,
      fun resets => by simp [hrst] at resets⟩
    · exact transfer_taken p i.outReady ▸ List.prefix_append _ _
    · dsimp only
      rw [transfer_keeps_order]

/-! ### Acceptance, waiting and the fault output (R41, R97, R102) -/

theorem feed_eq_of_accept {w : CmdWord} {s t : State} (h : accept w s = .next t) : feed s w = t := by
  rw [feed, h]

/-- A word takes the block from outside FAULT into it exactly by fault entry. -/
theorem feed_fault_iff {s : State} (outside : s.phase ≠ .fault) (w : CmdWord) :
    (feed s w).phase = .fault ↔ ∃ e, accept w s = .next (s.countCommand.raise e) := by
  constructor
  · intro inFault
    obtain ⟨e, _, entry⟩ := exists_raises_of_fault outside (accept_eq_next_feed s w) inFault
    exact ⟨e, by rw [accept_eq_next_feed, entry]⟩
  · rintro ⟨e, entry⟩
    rw [feed_eq_of_accept entry, raise_phase]

/-- A word leaves FAULT exactly when it is CLR's. -/
theorem feed_leaves_fault_iff {s : State} (inFault : s.phase = .fault) (w : CmdWord) :
    (feed s w).phase ≠ .fault ↔ w = 0x300#10 := by
  by_cases hw : w = 0x300#10
  · subst hw
    rw [feed_eq_of_accept (accept_clr_in_fault inFault)]
    simp
  · rw [feed_eq_of_accept (accept_fault (decode_ne_clr hw) inFault)]
    simp [inFault, hw]

theorem faultLine_eq_false_iff (s : State) : s.faultLine = false ↔ s.phase ≠ .fault := by
  simp [State.faultLine]

/-- The core after an edge: reset, the offered word accepted, or as before. -/
theorem clockEdge_core {P : Config.Params} {i : PortIn} {p q : PortState} (h : clockEdge P i p = .next q) :
    (i.rst = true → q.core = State.reset) ∧
    (i.rst = false → ∀ w, i.inWord = some w → p.inReady P = true →
      q.core = feed p.core w ∧ q.wait = P.cyclesPerCmd - 1) ∧
    (i.rst = false → (i.inWord = none ∨ p.inReady P = false) → q.core = p.core ∧ q.wait = p.wait - 1) := by
  refine ⟨fun hrst => ?_, fun hrst w offered ready => ?_, fun hrst waits => ?_⟩
  · rw [clockEdge_reset P p hrst] at h; cases h; rfl
  · rw [clockEdge_accepts P hrst offered ready] at h; cases h; exact ⟨rfl, rfl⟩
  · rw [clockEdge_waits P hrst waits] at h; cases h; exact ⟨transfer_core p _, rfl⟩

/-- Only fault entry sets the fault output. -/
theorem clockEdge_sets_fault_iff {P : Config.Params} {i : PortIn} {p q : PortState} (h : clockEdge P i p = .next q)
    (clear : p.core.phase ≠ .fault) :
    q.core.phase = .fault ↔ i.rst = false ∧ p.inReady P = true ∧
      ∃ w e, i.inWord = some w ∧ accept w p.core = .next (p.core.countCommand.raise e) := by
  obtain ⟨resets, accepts, waits⟩ := clockEdge_core h
  cases hrst : i.rst with
  | true => simp [resets hrst, State.reset]
  | false =>
    rcases accepts_or_waits P i p with ⟨w, offered, ready⟩ | idle
    · obtain ⟨core, _⟩ := accepts hrst w offered ready
      simp [core, feed_fault_iff clear, offered, ready]
    · obtain ⟨core, _⟩ := waits hrst idle
      rcases idle with none | busy
      · simp [core, clear, none]
      · simp [core, clear, busy]

/-- Exactly CLR and reset clear it. -/
theorem clockEdge_clears_fault_iff {P : Config.Params} {i : PortIn} {p q : PortState} (h : clockEdge P i p = .next q)
    (inFault : p.core.phase = .fault) :
    q.core.phase ≠ .fault ↔ i.rst = true ∨ p.inReady P = true ∧ i.inWord = some 0x300#10 := by
  obtain ⟨resets, accepts, waits⟩ := clockEdge_core h
  cases hrst : i.rst with
  | true => simp [resets hrst, State.reset]
  | false =>
    rcases accepts_or_waits P i p with ⟨w, offered, ready⟩ | idle
    · obtain ⟨core, _⟩ := accepts hrst w offered ready
      rw [core, feed_leaves_fault_iff inFault]
      simp [offered, ready]
    · obtain ⟨core, _⟩ := waits hrst idle
      rcases idle with none | busy
      · simp [core, inFault, none]
      · simp [core, inFault, busy]

/-- Settles O58: the outputs by their lemmas, the edge by its kinds. -/
theorem portsAcceptOrWait : Obligations.PortsAcceptOrWait := by
  unfold Obligations.PortsAcceptOrWait
  simp only [outputs_inReady, outputs_outWord, outputs_fault, faultLine_eq_true, faultLine_eq_false_iff]
  refine ⟨fun P p => ⟨inReady_eq_true_iff P p, trivial, trivial, outputs_status p P⟩, fun P i p _ =>
    ⟨clockEdge_completes P i p, fun q hrst h => ?_, fun hrst stuck full => ?_,
     fun q h => ⟨clockEdge_sets_fault_iff h, clockEdge_clears_fault_iff h⟩⟩⟩
  · obtain ⟨_, accepts, waits⟩ := clockEdge_core h
    refine ⟨fun w offered ready => ?_, waits hrst⟩
    obtain ⟨core, wait⟩ := accepts hrst w offered ready
    exact ⟨by rw [core, accept_eq_next_feed], wait⟩
  · have notReady : p.inReady P = false := by
      rw [← Bool.not_eq_true, inReady_eq_true_iff]
      omega
    rw [clockEdge_waits P hrst (.inr notReady), stuck]
    rfl

/-! ### A sink that takes every word (R118) -/

/-- One edge at which nothing is offered and the sink is ready. -/
def drainEdge : PortIn := { rst := false, inWord := none, outReady := true }

theorem transfer_true (p : PortState) :
    p.transfer true = { p with oq := p.oq.drop 1, taken := p.taken ++ p.oq.take 1 } := by
  cases h : p.oq with
  | nil => simp [PortState.transfer, h]; cases p; simp_all
  | cons w q => simp [PortState.transfer, h]

/-- After k such edges the sink has taken the k oldest words, and k cycles have passed. -/
theorem runEdges_drain (P : Config.Params) (k : Nat) (p : PortState) :
    runEdges P (List.replicate k drainEdge) p =
      .next { p with oq := p.oq.drop k, taken := p.taken ++ p.oq.take k, wait := p.wait - k } := by
  induction k generalizing p with
  | zero => simp [runEdges]
  | succ k ih =>
    rw [List.replicate_succ, runEdges, clockEdge_waits P rfl (.inl rfl), drainEdge, transfer_true]
    refine (ih _).trans ?_
    dsimp only
    rw [List.drop_drop, List.append_assoc, ← List.take_add, Nat.sub_sub, Nat.add_comm 1 k]

/-- Settles O59: by then the queue is empty and no cycle is owed. -/
theorem fairSinkMakesReady : Obligations.FairSinkMakesReady := by
  unfold Obligations.FairSinkMakesReady
  intro P p valid
  obtain ⟨depth, _⟩ := (valid_iff P).mp valid
  refine ⟨_, runEdges_drain P (p.oq.length + p.wait) p, ?_, rfl, ?_⟩
  · rw [inReady_eq_true_iff]
    simpa using depth
  · dsimp only
    rw [List.take_of_length_le (Nat.le_add_right _ _)]

end Sys2Proof.Machine

/-! PROOFS. The encoder's steps compute rle (41_rle.md R67). -/
namespace Sys2Proof.Machine

/-! ### A row of bytes through the encoder -/

@[simp] theorem rlSteps_nil (s : State) : rlSteps [] s = s := rfl

theorem rlSteps_cons (b : Byte) (B : List Byte) (s : State) : rlSteps (b :: B) s = rlSteps B (rlStep b s) := rfl

theorem rlSteps_concat (B : List Byte) (b : Byte) (s : State) : rlSteps (B ++ [b]) s = rlStep b (rlSteps B s) := by
  simp [rlSteps]

/-- The encoder writes RUN, CNT and OUT, and to OUT it only adds BYTE words. -/
theorem rlSteps_frame (B : List Byte) (s : State) : ∃ (bs : List Byte) (r : Bool) (c : Byte),
    rlSteps B s = { s with run := r, cnt := c, out := s.out ++ bs.map OutWord.byte } := by
  induction B generalizing s with
  | nil => exact ⟨[], s.run, s.cnt, by simp⟩
  | cons b B ih =>
    obtain ⟨first, _, _, _, step⟩ := rlStep_frame b s
    obtain ⟨bs, r, c, rest⟩ := ih (rlStep b s)
    refine ⟨first ++ bs, r, c, ?_⟩
    rw [rlSteps_cons, rest, step]
    simp

/-- What R24 item 3 says of RUN and CNT. -/
def State.RunOk (s : State) : Prop :=
  (s.run = false → s.cnt = 0x00#8) ∧ (s.run = true → 1 ≤ s.cnt.toNat ∧ s.cnt.toNat ≤ 254)

/-- A marker of an open run is already pushed, its count byte is owed: from there the encoder pushes what rle gives for
the zeros counted and the bytes to come, less that marker. -/
theorem rlFlush_rlSteps (B : List Byte) (s : State) (ok : s.RunOk) :
    rlFlush (rlSteps B s) = { s with
      run := false, cnt := 0x00#8,
      out := s.out ++ ((rle (List.replicate s.cnt.toNat 0x00#8 ++ B)).drop s.run.toNat).map OutWord.byte } := by
  obtain ⟨closed_cnt, open_cnt⟩ := ok
  induction B generalizing s with
  | nil =>
    cases run : s.run with
    | false =>
      have cnt := closed_cnt run
      rw [rlSteps_nil, rlFlush_closed s run, cnt]
      cases s; simp_all
    | true =>
      obtain ⟨pos, le⟩ := open_cnt run
      rw [rlSteps_nil, rlFlush_open s run, rle_run pos (by omega) (fun _ => lz_nil)]
      simp [State.setRle, State.emit, State.outPush]
  | cons b B ih =>
    rw [rlSteps_cons]
    rcases rlStep_cases b s with ⟨run, hb, step⟩ | ⟨run, rfl, step⟩ | ⟨run, rfl, below, step⟩ | ⟨run, rfl, full, step⟩ |
      ⟨run, hb, step⟩
    · have cnt := closed_cnt run
      rw [step, ih (s.emit b) closed_cnt open_cnt]
      simp [run, cnt, rle_cons_literal b B hb, State.emit, State.outPush]
    · have cnt := closed_cnt run
      rw [step, ih _ (by simp) (by simp)]
      simp [run, cnt, rle_cons_zero, State.setRle, State.emit, State.outPush]
    · have counted : (s.cnt + 0x01#8).toNat = s.cnt.toNat + 1 := by bv_omega
      rw [step, ih _ (by simp) (by simp only [setRle_cnt, counted]; omega), setRle_cnt, counted, List.replicate_succ',
        List.append_assoc]
      simp [run, State.setRle]
    · obtain ⟨_, le⟩ := open_cnt run
      have cnt : s.cnt.toNat = 254 := le.antisymm full
      have whole : List.replicate 254 0x00#8 ++ 0x00#8 :: B = List.replicate 255 0x00#8 ++ B := by
        rw [List.replicate_succ' (n := 254), List.append_assoc]; rfl
      rw [step, ih _ (by simp) (by simp), cnt, whole, rle_run (by decide) le_rfl (fun h => absurd h (by decide))]
      simp [run, State.setRle, State.emit, State.outPush]
    · obtain ⟨pos, le⟩ := open_cnt run
      rw [step, ih _ (by simp) (by simp), rle_run pos (by omega) (fun _ => lz_cons_literal hb B), rle_cons_literal b B hb]
      simp [run, State.setRle, State.emit, State.outPush]

/-- With no run open before, the whole encoding (R67). -/
theorem rlFlush_rlSteps_of_closed (B : List Byte) {s : State} (run : s.run = false) (cnt : s.cnt = 0x00#8) :
    rlFlush (rlSteps B s) = { s with out := s.out ++ (rle B).map OutWord.byte } := by
  rw [rlFlush_rlSteps B s ⟨fun _ => cnt, by simp [run]⟩, cnt, run]
  cases s; simp_all

theorem rlSteps_out_of_closed {B : List Byte} {s : State} (run : s.run = false) (cnt : s.cnt = 0x00#8)
    (closed : (rlSteps B s).run = false) : (rlSteps B s).out = s.out ++ (rle B).map OutWord.byte := by
  rw [← rlFlush_closed _ closed, rlFlush_rlSteps_of_closed B run cnt]

theorem map_byte_injective : Function.Injective (List.map OutWord.byte) :=
  List.map_injective_iff.mpr fun _ _ same => OutWord.byte.inj same

/-- While a run is open, only its count byte is owed: the flush pushes it, and it is CNT. -/
theorem rlSteps_out_of_open {B : List Byte} {s : State} (run : s.run = false) (cnt : s.cnt = 0x00#8)
    (opened : (rlSteps B s).run = true) :
    (rlSteps B s).out = s.out ++ ((rle B).dropLast).map OutWord.byte ∧ (rle B).getLast? = some (rlSteps B s).cnt := by
  have flushed := congrArg State.out (rlFlush_rlSteps_of_closed B run cnt)
  obtain ⟨bs, r, c, effect⟩ := rlSteps_frame B s
  rw [rlFlush_open _ opened, effect] at flushed
  have bytes : rle B = bs ++ [c] := by
    refine map_byte_injective (List.append_cancel_left (as := s.out) ?_)
    simpa using flushed.symm
  rw [effect, bytes]
  simp

/-- Settles O23: the flush completes the encoding, and it pushes nothing or the owed count byte. -/
theorem encoderRefinesRle : Obligations.EncoderRefinesRle := by
  unfold Obligations.EncoderRefinesRle
  exact fun B s run cnt =>
    ⟨rlFlush_rlSteps_of_closed B run cnt, rlSteps_out_of_closed run cnt, rlSteps_out_of_open run cnt⟩

/-- CNT counts the zeros at the end, in runs of 255, and a run is open exactly when it is not 0. -/
theorem rlSteps_cnt (B : List Byte) {s : State} (run : s.run = false) (cnt : s.cnt = 0x00#8) :
    (rlSteps B s).cnt.toNat = tz B % 255 ∧ ((rlSteps B s).run = true ↔ tz B % 255 ≠ 0) := by
  induction B using List.reverseRecOn with
  | nil => simp [run, cnt]
  | append_singleton B b ih =>
    obtain ⟨counts, opened⟩ := ih
    rw [rlSteps_concat, tz_concat]
    rcases rlStep_cases b (rlSteps B s) with ⟨hr, hb, step⟩ | ⟨hr, hb, step⟩ | ⟨hr, hb, below, step⟩ |
      ⟨hr, hb, full, step⟩ | ⟨hr, hb, step⟩ <;> rw [step]
    · have none : tz B % 255 = 0 := by simpa [hr] using opened
      simp [hb, hr, counts, none]
    · have none : tz B % 255 = 0 := by simpa [hr] using opened
      simp [hb, Nat.add_mod, none]
    · have counted : ((rlSteps B s).cnt + 0x01#8).toNat = (rlSteps B s).cnt.toNat + 1 := by bv_omega
      rw [if_pos hb, setRle_cnt, setRle_run, counted]
      simp only [true_iff]
      omega
    · rw [if_pos hb, setRle_cnt, setRle_run]
      simp only [Bool.false_eq_true, false_iff, BitVec.toNat_ofNat]
      omega
    · simp [hb]

end Sys2Proof.Machine

/-! PROOFS. A frame pushes what the function F_m says (42_commands.md R89; 20_memory.md R28, R36; 70_reset_and_hazards.md
R118). -/
namespace Sys2Proof.Machine

/-! ### A row of bytes through the second stage -/

/-- Successive bytes through the second stage (R75). -/
def rleStages (B : List Byte) (s : State) : State := B.foldl (fun s a => rleStage a s) s

@[simp] theorem rleStages_nil (s : State) : rleStages [] s = s := rfl

theorem rleStages_cons (a : Byte) (B : List Byte) (s : State) : rleStages (a :: B) s = rleStages B (rleStage a s) := rfl

theorem rleStages_append (A B : List Byte) (s : State) : rleStages (A ++ B) s = rleStages B (rleStages A s) := by
  simp [rleStages]

/-- The second stage does not look at PHASE, the packer or the count of words, so they can be written before or after it. -/
theorem rleStage_front (a : Byte) (s : State) (p : Phase) (acc : Byte) (k : BitVec 3) (n : Nat) (i : List HostInput) :
    rleStage a { s with phase := p, acc := acc, bitcnt := k, cmdidx := n, inp := i } =
      { rleStage a s with phase := p, acc := acc, bitcnt := k, cmdidx := n, inp := i } := by
  unfold rleStage rlStep
  split_ifs <;> rfl

theorem rleStages_front (B : List Byte) (s : State) (p : Phase) (acc : Byte) (k : BitVec 3) (n : Nat) (i : List HostInput) :
    rleStages B { s with phase := p, acc := acc, bitcnt := k, cmdidx := n, inp := i } =
      { rleStages B s with phase := p, acc := acc, bitcnt := k, cmdidx := n, inp := i } := by
  induction B generalizing s with
  | nil => rfl
  | cons a B ih => rw [rleStages_cons, rleStage_front, ih]; rfl

theorem rleStages_raw (B : List Byte) {s : State} (h : bypRle s.mode = true) :
    rleStages B s = { s with out := s.out ++ B.map OutWord.byte } := by
  induction B generalizing s with
  | nil => simp
  | cons a B ih =>
    rw [rleStages_cons, rleStage_raw a s h, ih (s := s.emit a) h]
    simp [State.emit, State.outPush]

theorem rleStages_encoded (B : List Byte) {s : State} (h : bypRle s.mode = false) : rleStages B s = rlSteps B s := by
  induction B generalizing s with
  | nil => rfl
  | cons a B ih =>
    obtain ⟨_, _, _, _, step⟩ := rlStep_frame a s
    rw [rleStages_cons, rleStage_encoded a s h, ih (by rw [step]; exact h), rlSteps_cons]

theorem rleStages_frame (B : List Byte) (s : State) : ∃ (bs : List Byte) (r : Bool) (c : Byte),
    rleStages B s = { s with run := r, cnt := c, out := s.out ++ bs.map OutWord.byte } := by
  cases h : bypRle s.mode with
  | true => exact ⟨B, s.run, s.cnt, rleStages_raw B h⟩
  | false => rw [rleStages_encoded B h]; exact rlSteps_frame B s

section Fields

variable (B : List Byte) (s : State)

@[simp] theorem rleStages_mode : (rleStages B s).mode = s.mode := by
  obtain ⟨_, _, _, effect⟩ := rleStages_frame B s; rw [effect]

@[simp] theorem rleStages_phase : (rleStages B s).phase = s.phase := by
  obtain ⟨_, _, _, effect⟩ := rleStages_frame B s; rw [effect]

@[simp] theorem rleStages_cause : (rleStages B s).cause = s.cause := by
  obtain ⟨_, _, _, effect⟩ := rleStages_frame B s; rw [effect]

@[simp] theorem rleStages_acc : (rleStages B s).acc = s.acc := by
  obtain ⟨_, _, _, effect⟩ := rleStages_frame B s; rw [effect]

@[simp] theorem rleStages_bitcnt : (rleStages B s).bitcnt = s.bitcnt := by
  obtain ⟨_, _, _, effect⟩ := rleStages_frame B s; rw [effect]

@[simp] theorem rleStages_cmdidx : (rleStages B s).cmdidx = s.cmdidx := by
  obtain ⟨_, _, _, effect⟩ := rleStages_frame B s; rw [effect]

@[simp] theorem rleStages_faults : (rleStages B s).faults = s.faults := by
  obtain ⟨_, _, _, effect⟩ := rleStages_frame B s; rw [effect]

@[simp] theorem rleStages_inp : (rleStages B s).inp = s.inp := by
  obtain ⟨_, _, _, effect⟩ := rleStages_frame B s; rw [effect]

end Fields

/-- The bytes a frame pushes for the bytes that reached the second stage (R89). -/
def secondStage (m : Mode) (B : List Byte) : List Byte := if bypRle m then B else rle B

theorem rleStages_setPacker (B : List Byte) (s : State) (a : Byte) (k : BitVec 3) :
    rleStages B (s.setPacker a k) = (rleStages B s).setPacker a k := by
  refine (rleStages_front B s s.phase a k s.cmdidx s.inp).trans ?_
  simp [State.setPacker]

theorem rleStages_setPhase (B : List Byte) (s : State) (p : Phase) :
    rleStages B (s.setPhase p) = (rleStages B s).setPhase p := by
  refine (rleStages_front B s p s.acc s.bitcnt s.cmdidx s.inp).trans ?_
  simp [State.setPhase]

theorem rleStages_count (B : List Byte) (s : State) (n : Nat) (i : List HostInput) :
    rleStages B { s with cmdidx := n, inp := i } = { rleStages B s with cmdidx := n, inp := i } := by
  refine (rleStages_front B s s.phase s.acc s.bitcnt n i).trans ?_
  simp

/-- With no run open before, the second stage and the flush push all of `secondStage`. -/
theorem flushStage_rleStages (B : List Byte) {s : State} (run : s.run = false) (cnt : s.cnt = 0x00#8) :
    flushStage (rleStages B s) = { s with out := s.out ++ (secondStage s.mode B).map OutWord.byte } := by
  rw [flushStage, rleStages_mode, secondStage]
  cases h : bypRle s.mode with
  | true => exact rleStages_raw B h
  | false => rw [rleStages_encoded B h]; exact rlFlush_rlSteps_of_closed B run cnt

/-! ### A row of operands through the first stage -/

/-- Successive operands through the first stage: the bytes that reach the second stage, in order, and the state after. -/
def packStages : List Byte → State → List Byte × State
  | [], s => ([], s)
  | d :: D, s => ((packStage d s).1.toList ++ (packStages D (packStage d s).2).1, (packStages D (packStage d s).2).2)

theorem packStages_concat (D : List Byte) (d : Byte) (s : State) :
    packStages (D ++ [d]) s =
      ((packStages D s).1 ++ (packStage d (packStages D s).2).1.toList, (packStage d (packStages D s).2).2) := by
  induction D generalizing s with
  | nil => simp [packStages]
  | cons e D ih => simp only [List.cons_append, packStages, ih, List.append_assoc]

theorem packStages_bytes (D : List Byte) {s : State} (h : bypPack s.mode = true) : packStages D s = (D, s) := by
  induction D with
  | nil => rfl
  | cons d D ih => rw [packStages, packStage_byte d s h, ih]; rfl

theorem packStages_pixels (D : List Byte) {s : State} (h : bypPack s.mode = false) : packStages D s = pkSteps D s := by
  induction D generalizing s with
  | nil => rfl
  | cons d D ih =>
    obtain ⟨a, k, effect⟩ := pkStep_frame d s
    rw [packStages, packStage_pixel d s h, ih (by rw [effect]; exact h), pkSteps]

/-- The two stages keep out of each other's registers. -/
theorem packStage_rleStages (d : Byte) (B : List Byte) (s : State) :
    packStage d (rleStages B s) = ((packStage d s).1, rleStages B (packStage d s).2) := by
  cases h : bypPack s.mode with
  | true => rw [packStage_byte d s h, packStage_byte d _ (by rw [rleStages_mode, h])]
  | false =>
    rw [packStage_pixel d s h, packStage_pixel d _ (by rw [rleStages_mode, h])]
    by_cases last : s.bitcnt = 7#3
    · rw [pkStep_last d s last, pkStep_last d _ (by rw [rleStages_bitcnt, last]), rleStages_acc,
        rleStages_setPacker]
    · rw [pkStep_inner d s last, pkStep_inner d _ (by rwa [rleStages_bitcnt]), rleStages_acc, rleStages_bitcnt,
        rleStages_setPacker]

theorem packStage_setPhase (d : Byte) (s : State) (p : Phase) :
    packStage d (s.setPhase p) = ((packStage d s).1, (packStage d s).2.setPhase p) := by
  cases packing : bypPack s.mode with
  | true => rw [packStage_byte d s packing, packStage_byte d (s.setPhase p) packing]
  | false =>
    rw [packStage_pixel d s packing, packStage_pixel d (s.setPhase p) packing]
    by_cases last : s.bitcnt = 7#3
    · rw [pkStep_last d s last, pkStep_last d (s.setPhase p) last]; rfl
    · rw [pkStep_inner d s last, pkStep_inner d (s.setPhase p) last]; rfl

theorem setPhase_setPhase (s : State) (p q : Phase) : (s.setPhase p).setPhase q = s.setPhase q := rfl

/-! ### The DATA commands of a frame -/

/-- Successive DATA commands outside FAULT. -/
def dataEffects (D : List Byte) (s : State) : State := D.foldl (fun s d => dataEffect d s) s

theorem dataEffects_concat (D : List Byte) (d : Byte) (s : State) :
    dataEffects (D ++ [d]) s = dataEffect d (dataEffects D s) := by
  simp [dataEffects]

theorem dataEffect_eq_rleStages (d : Byte) (s : State) :
    dataEffect d s = rleStages (packStage d (s.setPhase .busy)).1.toList (packStage d (s.setPhase .busy)).2 := by
  rw [dataEffect]
  cases (packStage d (s.setPhase .busy)).1 <;> rfl

/-- PHASE after n DATA commands: the first one opens the frame (R75). -/
def phaseAfter (D : List Byte) (s : State) : Phase := if D = [] then s.phase else .busy

/-- The frame's operands go through the first stage, and what comes out of it through the second. -/
theorem dataEffects_eq_rleStages (D : List Byte) (s : State) :
    dataEffects D s = rleStages (packStages D s).1 ((packStages D s).2.setPhase (phaseAfter D s)) := by
  induction D using List.reverseRecOn with
  | nil => rfl
  | append_singleton D d ih =>
    have opened : phaseAfter (D ++ [d]) s = .busy := if_neg (by simp)
    rw [dataEffects_concat, ih, dataEffect_eq_rleStages, ← rleStages_setPhase, packStage_rleStages, setPhase_setPhase,
      packStage_setPhase, packStages_concat, opened, rleStages_append]

/-- DATA does not look at CMDIDX or IN. -/
theorem dataEffect_count (d : Byte) (s : State) (n : Nat) (i : List HostInput) :
    dataEffect d { s with cmdidx := n, inp := i } = { dataEffect d s with cmdidx := n, inp := i } := by
  rcases dataEffect_cases d s with ⟨bypassed, effect⟩ | ⟨packing, inner, effect⟩ | ⟨packing, last, effect⟩ <;> rw [effect]
  · rw [dataEffect_byte d { s with cmdidx := n, inp := i } bypassed]
    exact rleStages_count [d] { s with phase := .busy } n i
  · rw [dataEffect_inner d { s with cmdidx := n, inp := i } packing inner]
  · rw [dataEffect_last d { s with cmdidx := n, inp := i } packing last]
    exact rleStages_count [sh s.acc (thr d)] { s with phase := .busy, acc := 0x00#8, bitcnt := 0#3 } n i

/-- The DATA commands of a frame take one step each (R118). -/
theorem run_dataInputs {D : List Byte} {rest : List HostInput} {s : State} (outside : s.phase ≠ .fault)
    (hinp : s.inp = dataInputs D ++ rest) :
    Sys2Proof.core.run D.length s = .next (dataEffects D { s with cmdidx := s.cmdidx + D.length, inp := rest }) := by
  induction D generalizing s with
  | nil =>
    obtain rfl : s.inp = rest := hinp
    rfl
  | cons d D ih =>
    have stepped : step s = .next (dataEffect d { s with cmdidx := s.cmdidx + 1, inp := dataInputs D ++ rest }) := by
      rw [step_word hinp]
      exact accept_data (s := { s with inp := dataInputs D ++ rest }) outside (decode_encode (.data d))
    have counted : s.cmdidx + 1 + D.length = s.cmdidx + (D.length + 1) := by omega
    rw [List.length_cons, run_succ_of_step stepped, ih (by simp) (by simp), dataEffect_cmdidx, counted,
      ← dataEffect_count]
    rfl

/-! ### An open frame (R36, R60, R67) -/

/-- The bytes that reach the second stage for the operands so far: all of them, or the packed groups. -/
def reached (m : Mode) (D : List Byte) : List Byte := if bypPack m then D else packGroups D

/-- The state after n DATA commands from IDLE, the second stage apart: the last, partial group stands in ACC. -/
def packerAfter (D : List Byte) (s : State) : State :=
  { s with
    phase := phaseAfter D s
    acc := if bypPack s.mode then 0x00#8 else shiftIn 0x00#8 (D.drop (8 * (D.length / 8)))
    bitcnt := if bypPack s.mode then 0#3 else BitVec.ofNat 3 (D.length % 8) }

/-- The state after n DATA commands from IDLE. -/
def openFrame (D : List Byte) (s : State) : State := rleStages (reached s.mode D) (packerAfter D s)

theorem dataEffects_of_idle (D : List Byte) {s : State} (inv : s.Inv) (idle : s.phase = .idle) :
    dataEffects D s = openFrame D s := by
  obtain ⟨acc, bitcnt, _⟩ := inv.idle_clear idle
  rw [dataEffects_eq_rleStages, openFrame, reached, packerAfter]
  cases packing : bypPack s.mode with
  | true =>
    rw [packStages_bytes D packing]
    simp [State.setPhase, ← acc, ← bitcnt]
  | false =>
    rw [packStages_pixels D packing, pkSteps_eq D bitcnt, acc, partialGroup_zero]
    simp [State.setPhase]

/-- The state with n words counted and consumed. -/
def State.afterWords (n : Nat) (rest : List HostInput) (s : State) : State :=
  { s with cmdidx := s.cmdidx + n, inp := rest }

theorem State.Inv.afterWords {s : State} (inv : s.Inv) (n : Nat) (rest : List HostInput) : (s.afterWords n rest).Inv :=
  SameRegisters.inv (s := s) ⟨rfl, rfl, rfl, rfl, rfl, rfl, rfl⟩ inv

theorem run_openFrame {D : List Byte} {rest : List HostInput} {s : State} (inv : s.Inv) (idle : s.phase = .idle)
    (hinp : s.inp = dataInputs D ++ rest) :
    Sys2Proof.core.run D.length s = .next (openFrame D (s.afterWords D.length rest)) := by
  rw [run_dataInputs (by simp [idle]) hinp]
  exact congrArg Host.Outcome.next (dataEffects_of_idle D (inv.afterWords D.length rest) idle)

/-- One word more is counted and consumed after the DATA commands. -/
theorem openFrame_afterWords (D : List Byte) (s : State) (n : Nat) (i rest : List HostInput) :
    ({ openFrame D (s.afterWords n i) with inp := rest } : State).countCommand =
      openFrame D (s.afterWords (n + 1) rest) := by
  have counted := rleStages_count (reached s.mode D) (packerAfter D (s.afterWords n i)) (s.cmdidx + (n + 1)) rest
  refine Eq.trans ?_ counted.symm
  simp [State.countCommand, openFrame, packerAfter, State.afterWords, Nat.add_assoc]

theorem openFrame_bitcnt_toNat (D : List Byte) {s : State} (packing : bypPack s.mode = false) :
    (openFrame D s).bitcnt.toNat = D.length % 8 := by
  rw [openFrame, rleStages_bitcnt, packerAfter, packing]
  simp only [Bool.false_eq_true, if_false, BitVec.toNat_ofNat]
  omega

theorem openFrame_acc (D : List Byte) {s : State} (packing : bypPack s.mode = false) :
    (openFrame D s).acc = shiftIn 0x00#8 (D.drop (8 * (D.length / 8))) := by
  rw [openFrame, rleStages_acc, packerAfter, packing]
  rfl

theorem openFrame_out_raw (D : List Byte) {s : State} (raw : bypRle s.mode = true) :
    (openFrame D s).out = s.out ++ (reached s.mode D).map OutWord.byte := by
  rw [openFrame, rleStages_raw _ (s := packerAfter D s) raw]
  rfl

section Encoded

/-! With the encoder in use the second stage is the encoder's steps (`Obligations.EncoderRefinesRle`). -/

variable (D : List Byte) {s : State} (encoding : bypRle s.mode = false)

include encoding

theorem openFrame_encoded : openFrame D s = rlSteps (reached s.mode D) (packerAfter D s) :=
  rleStages_encoded _ (s := packerAfter D s) encoding

variable (run : s.run = false) (cnt : s.cnt = 0x00#8)

include run cnt

theorem openFrame_run_iff : (openFrame D s).run = true ↔ tz (reached s.mode D) % 255 ≠ 0 := by
  rw [openFrame_encoded D encoding]
  obtain ⟨_, opened⟩ := rlSteps_cnt (reached s.mode D) (s := packerAfter D s) run cnt
  exact opened

theorem openFrame_out_open (opened : (openFrame D s).run = true) :
    (openFrame D s).out = s.out ++ ((rle (reached s.mode D)).dropLast).map OutWord.byte ∧
      (rle (reached s.mode D)).getLast? = some (openFrame D s).cnt := by
  rw [openFrame_encoded D encoding] at opened ⊢
  exact rlSteps_out_of_open (s := packerAfter D s) run cnt opened

theorem openFrame_out_closed (closed : ¬(openFrame D s).run = true) :
    (openFrame D s).out = s.out ++ (rle (reached s.mode D)).map OutWord.byte := by
  rw [openFrame_encoded D encoding] at closed ⊢
  exact rlSteps_out_of_closed (s := packerAfter D s) run cnt (by simpa using closed)

end Encoded

/-- Settles O48: the state is `openFrame`; what it has pushed by the setting of MODE[1] and RUN. -/
theorem openFrameOutput : Obligations.OpenFrameOutput := by
  unfold Obligations.OpenFrameOutput
  intro s D rest inv idle hinp
  obtain ⟨_, _, run, cnt, cause⟩ := inv.idle_clear idle
  have phase : (packerAfter D (s.afterWords D.length rest)).phase = if D = [] then .idle else .busy := by
    rw [← idle]; rfl
  refine ⟨_, run_openFrame inv idle hinp, rleStages_inp _ _, rleStages_cmdidx _ _, rleStages_mode _ _,
    (rleStages_phase _ _).trans phase, (rleStages_cause _ _).trans cause, rleStages_faults _ _,
    fun packing => ⟨openFrame_bitcnt_toNat D packing, openFrame_acc D packing⟩, ?_⟩
  · dsimp only
    split
    case isTrue raw => exact openFrame_out_raw D raw
    case isFalse encoding =>
      have encoding := Bool.eq_false_iff.mpr encoding
      split
      case isTrue opened => exact openFrame_out_open D encoding run cnt opened
      case isFalse closed => exact openFrame_out_closed D encoding run cnt closed

/-! ### END (R80, R89) -/

/-- A frame's length is bad exactly for a packing mode and a partial group. -/
theorem lengthBad_openFrame (D : List Byte) (s : State) :
    lengthBad (openFrame D s) = true ↔ bypPack s.mode = false ∧ D.length % 8 ≠ 0 := by
  rw [lengthBad_eq_true_iff]
  have mode : (openFrame D s).mode = s.mode := rleStages_mode _ _
  rw [mode]
  refine and_congr_right fun packing => not_congr ?_
  rw [← openFrame_bitcnt_toNat D packing]
  exact BitVec.toNat_inj.symm

theorem run_one (s : State) : Sys2Proof.core.run 1 s = step s := by
  simp only [Host.Core.run, core_step]
  cases step s <;> rfl

/-- A frame takes n + 1 steps; the last is END's (R118). -/
theorem run_frameInputs {D : List Byte} {rest : List HostInput} {s : State} (inv : s.Inv) (idle : s.phase = .idle)
    (hinp : s.inp = frameInputs D ++ rest) :
    Sys2Proof.core.run (D.length + 1) s = execEnd (openFrame D (s.afterWords (D.length + 1) rest)) := by
  have opened := run_openFrame (rest := .word (encode .endFrame) :: rest) inv idle (by simpa [frameInputs] using hinp)
  rw [run_add opened, run_one, step_word (w := encode .endFrame) (rest := rest) (rleStages_inp _ _),
    accept_command _ _ .endFrame (decode_encode .endFrame), openFrame_afterWords]
  rfl

theorem firstStage_of_good {m : Mode} {D : List Byte} (good : bypPack m = true ∨ D.length % 8 = 0) :
    firstStage m D = .ok (reached m D) := by
  rw [firstStage, reached]
  rcases good with bypassed | whole
  · rw [if_pos bypassed, if_pos bypassed]
  · rw [pack_of_length_mod_eq_zero whole]
    split <;> rfl

theorem codec_of_good {m : Mode} {D : List Byte} (good : bypPack m = true ∨ D.length % 8 = 0) :
    codec m D = .ok (secondStage m (reached m D)) := by
  rw [codec, firstStage_of_good good]
  rfl

theorem codec_of_bad {m : Mode} {D : List Byte} (packing : bypPack m = false) (partialGroup : D.length % 8 ≠ 0) :
    codec m D = .error .invalidInputLength := by
  rw [codec, firstStage, packing, (pack_eq_error_iff D).mpr partialGroup]
  rfl

/-- F_m fails exactly for the packing modes and a partial group. -/
theorem codec_cases (m : Mode) (D : List Byte) :
    ((bypPack m = true ∨ D.length % 8 = 0) ∧ codec m D = .ok (secondStage m (reached m D))) ∨
    (bypPack m = false ∧ D.length % 8 ≠ 0 ∧ codec m D = .error .invalidInputLength) := by
  by_cases good : bypPack m = true ∨ D.length % 8 = 0
  · exact .inl ⟨good, codec_of_good good⟩
  · simp only [not_or, Bool.not_eq_true] at good
    exact .inr ⟨good.1, good.2, codec_of_bad good.1 good.2⟩

/-- After whole groups the packer is as empty as it was. -/
theorem packerAfter_of_good {D : List Byte} {s : State} (inv : s.Inv) (idle : s.phase = .idle)
    (good : bypPack s.mode = true ∨ D.length % 8 = 0) : packerAfter D s = s.setPhase (phaseAfter D s) := by
  obtain ⟨acc, bitcnt, _⟩ := inv.idle_clear idle
  rw [packerAfter]
  rcases good with bypassed | whole
  · simp [bypassed, State.setPhase, acc, bitcnt]
  · have nothing : D.drop (8 * (D.length / 8)) = [] := List.drop_eq_nil_of_le (by omega)
    have zero : shiftIn 0x00#8 [] = 0x00#8 := rfl
    simp [nothing, zero, whole, State.setPhase, acc, bitcnt]

theorem closeFrame_openFrame {D : List Byte} {s : State} (inv : s.Inv) (idle : s.phase = .idle)
    (good : bypPack s.mode = true ∨ D.length % 8 = 0) :
    closeFrame (openFrame D s) =
      { s with out := s.out ++ (secondStage s.mode (reached s.mode D)).map OutWord.byte ++ [.eof] } := by
  obtain ⟨_, _, run, cnt, _⟩ := inv.idle_clear idle
  have flushed := flushStage_rleStages (reached s.mode D) (s := packerAfter D s) run cnt
  rw [packerAfter_of_good inv idle good] at flushed
  rw [closeFrame, openFrame, packerAfter_of_good inv idle good, flushed]
  cases s
  obtain rfl := idle
  rfl

theorem openFrame_phase_ne_fault (D : List Byte) {s : State} (idle : s.phase = .idle) :
    (openFrame D s).phase ≠ .fault := by
  have phase : (openFrame D s).phase = phaseAfter D s := rleStages_phase _ _
  rw [phase, phaseAfter]
  split <;> simp [idle]

section Frame

variable {D : List Byte} {rest : List HostInput} {s : State} (inv : s.Inv) (idle : s.phase = .idle)
  (hinp : s.inp = frameInputs D ++ rest)

include inv idle hinp

theorem run_good_frame (good : bypPack s.mode = true ∨ D.length % 8 = 0) :
    Sys2Proof.core.run (D.length + 1) s = .next { s with
      out := s.out ++ (secondStage s.mode (reached s.mode D)).map OutWord.byte ++ [.eof]
      cmdidx := s.cmdidx + D.length + 1, inp := rest } := by
  have accepted : lengthBad (openFrame D (s.afterWords (D.length + 1) rest)) = false := by
    rw [← Bool.not_eq_true, lengthBad_openFrame]
    rintro ⟨packing, partialGroup⟩
    rcases good with bypassed | whole
    · exact absurd (bypassed.symm.trans packing) (by decide)
    · exact partialGroup whole
  rw [run_frameInputs inv idle hinp]
  refine (execEnd_closes _ (openFrame_phase_ne_fault (s := s.afterWords _ rest) D idle) accepted).trans ?_
  exact congrArg Host.Outcome.next (closeFrame_openFrame (inv.afterWords _ rest) idle good)

theorem run_bad_frame (packing : bypPack s.mode = false) (partialGroup : D.length % 8 ≠ 0) :
    Sys2Proof.core.run (D.length + 1) s =
      .next ((openFrame D (s.afterWords (D.length + 1) rest)).raise .invalidInputLength) := by
  rw [run_frameInputs inv idle hinp]
  exact execEnd_bad _ (openFrame_phase_ne_fault (s := s.afterWords _ rest) D idle)
    ((lengthBad_openFrame D _).mpr ⟨packing, partialGroup⟩)

end Frame

theorem good_and_eq_of_codec_eq_ok {m : Mode} {D Y : List Byte} (h : codec m D = .ok Y) :
    (bypPack m = true ∨ D.length % 8 = 0) ∧ Y = secondStage m (reached m D) := by
  rcases codec_cases m D with ⟨good, coded⟩ | ⟨_, _, coded⟩
  · rw [coded] at h; cases h; exact ⟨good, rfl⟩
  · rw [coded] at h; cases h

theorem bad_of_codec_eq_error {m : Mode} {D : List Byte} {e : Exc} (h : codec m D = .error e) :
    bypPack m = false ∧ D.length % 8 ≠ 0 := by
  rcases codec_cases m D with ⟨_, coded⟩ | ⟨packing, partialGroup, _⟩
  · rw [coded] at h; cases h
  · exact ⟨packing, partialGroup⟩

/-- Settles O49: a frame of good length is closed by END, and the flush completes F_m(D). -/
theorem frameRefinesCodec : Obligations.FrameRefinesCodec := by
  unfold Obligations.FrameRefinesCodec
  intro s D Y rest inv idle hinp coded
  obtain ⟨good, rfl⟩ := good_and_eq_of_codec_eq_ok coded
  exact run_good_frame inv idle hinp good

theorem packing_iff (m : Mode) : bypPack m = false ↔ m = 0b00#2 ∨ m = 0b10#2 := by
  revert m; decide

theorem codec_eq_error_iff (m : Mode) (D : List Byte) :
    codec m D = .error .invalidInputLength ↔ (m = 0b00#2 ∨ m = 0b10#2) ∧ D.length % 8 ≠ 0 := by
  rw [← packing_iff]
  exact ⟨bad_of_codec_eq_error, fun ⟨packing, partialGroup⟩ => codec_of_bad packing partialGroup⟩

/-- Settles O50: END's length check fails on the open frame, and fault entry freezes it. -/
theorem badFrameAborts : Obligations.BadFrameAborts := by
  unfold Obligations.BadFrameAborts
  refine ⟨codec_eq_error_iff, fun s D rest inv idle hinp coded => ?_⟩
  obtain ⟨packing, partialGroup⟩ := bad_of_codec_eq_error coded
  obtain ⟨_, _, run, cnt, _⟩ := inv.idle_clear idle
  have groups : packGroups D = reached (s.afterWords (D.length + 1) rest).mode D := by
    rw [State.afterWords, reached, packing]; rfl
  refine ⟨_, run_bad_frame inv idle hinp packing partialGroup, rfl, rfl, rleStages_mode _ _,
    openFrame_bitcnt_toNat D packing, openFrame_acc D packing, rleStages_inp _ _, fun packOnly => ?_, fun packRle => ?_⟩
  · rw [raise_out, openFrame_out_raw D (by rw [State.afterWords, packOnly]; rfl), groups]
    rfl
  · have encoding : bypRle (s.afterWords (D.length + 1) rest).mode = false := by rw [State.afterWords, packRle]; rfl
    rw [raise_run, raise_out, groups]
    refine ⟨openFrame_run_iff D encoding run cnt, ?_⟩
    split
    case isTrue opened =>
      obtain ⟨out, _⟩ := openFrame_out_open D encoding run cnt opened
      rw [out]; rfl
    case isFalse closed =>
      rw [openFrame_out_closed D encoding run cnt closed]; rfl

/-! ### The sink (R28) and the consumer (R102, R115) -/

/-- A sink that has read some words goes on with the frame they left open. -/
theorem sinkFrames_append (opened : List Byte) (ws vs : List OutWord) :
    sinkFrames opened (ws ++ vs) =
      ((sinkFrames opened ws).1 ++ (sinkFrames (sinkFrames opened ws).2 vs).1,
       (sinkFrames (sinkFrames opened ws).2 vs).2) := by
  induction ws generalizing opened with
  | nil => rfl
  | cons w ws ih => cases w <;> simp [sinkFrames, ih]

/-- After a closing word, or before the first word, no frame is open. -/
theorem sinkFrames_rest_of_closed {ws : List OutWord} (closed : ∀ b, ws.getLast? ≠ some (.byte b)) :
    (sinkFrames [] ws).2 = [] := by
  induction ws using List.reverseRecOn with
  | nil => rfl
  | append_singleton ws w _ =>
    rw [sinkFrames_append]
    cases w with
    | byte b => simp at closed
    | eof => rfl
    | abort r => rfl

theorem sinkFrames_bytes (opened bs : List Byte) : sinkFrames opened (bs.map OutWord.byte) = ([], opened ++ bs) := by
  induction bs generalizing opened with
  | nil => simp [sinkFrames]
  | cons b bs ih => simp [sinkFrames, ih]

theorem keptStreams_append {ws : List OutWord} (closed : ∀ b, ws.getLast? ≠ some (.byte b)) (vs : List OutWord) :
    keptStreams (ws ++ vs) = keptStreams ws ++ keptStreams vs := by
  simp [keptStreams, sinkFrames_append, sinkFrames_rest_of_closed closed]

theorem keptStreams_valid (bs : List Byte) : keptStreams (bs.map OutWord.byte ++ [.eof]) = [bs] := by
  simp [keptStreams, sinkFrames_append, sinkFrames_bytes, sinkFrames, Frame.valid]

theorem keptStreams_aborted (bs : List Byte) (r : AbortReason) : keptStreams (bs.map OutWord.byte ++ [.abort r]) = [] := by
  simp [keptStreams, sinkFrames_append, sinkFrames_bytes, sinkFrames, Frame.valid]

/-- Settles O52: OUT does not end inside a frame, so the sink cuts off exactly this frame's words. -/
theorem sinkKeepsCodecOutput : Obligations.SinkKeepsCodecOutput := by
  unfold Obligations.SinkKeepsCodecOutput
  intro s t D rest inv hist idle hinp hrun
  have closed := hist.closed_frame (by simp [idle])
  rcases codec_cases s.mode D with ⟨good, coded⟩ | ⟨packing, partialGroup, coded⟩ <;> rw [coded]
  · rw [run_good_frame inv idle hinp good] at hrun
    cases hrun
    rw [List.append_assoc, keptStreams_append closed, keptStreams_valid]
  · rw [run_bad_frame inv idle hinp packing partialGroup] at hrun
    cases hrun
    obtain ⟨bs, _, _, frame⟩ := rleStages_frame (reached s.mode D)
      (packerAfter D (s.afterWords (D.length + 1) rest))
    have out : (openFrame D (s.afterWords (D.length + 1) rest)).out = s.out ++ bs.map OutWord.byte :=
      congrArg State.out frame
    rw [raise_out, out, List.append_assoc, keptStreams_append closed, keptStreams_aborted]

/-- Settles O53: with the encoder in use the frame is rle of the bytes that reached it, which dec inverts. -/
theorem consumerRecovers : Obligations.ConsumerRecovers := by
  unfold Obligations.ConsumerRecovers
  intro m D Y coded
  obtain ⟨good, rfl⟩ := good_and_eq_of_codec_eq_ok coded
  constructor
  · intro rleMode
    have encoding : bypRle m = false := by rcases rleMode with rfl | rfl <;> rfl
    refine ⟨reached m D, firstStage_of_good good, ?_⟩
    rw [consumerDecode, secondStage, encoding]
    exact dec_rle _
  · intro rawMode
    have raw : bypRle m = true := by rcases rawMode with rfl | rfl <;> rfl
    rw [consumerDecode, raw]
    rfl

/-! ### How many words a frame pushes (R118) -/

theorem pushed_length_of_good {D : List Byte} {rest : List HostInput} {s t : State} (inv : s.Inv) (idle : s.phase = .idle)
    (hinp : s.inp = frameInputs D ++ rest) (hrun : Sys2Proof.core.run (D.length + 1) s = .next t)
    (good : bypPack s.mode = true ∨ D.length % 8 = 0) :
    (pushed s t).length = (secondStage s.mode (reached s.mode D)).length + 1 := by
  rw [run_good_frame inv idle hinp good] at hrun
  cases hrun
  rw [pushed_of_out (ws := (secondStage s.mode (reached s.mode D)).map OutWord.byte ++ [.eof]) (List.append_assoc ..)]
  simp

/-- Settles O55: the steps by `run_frameInputs`; a frame of good length pushes F_m(D) and EOF, whose length R71 bounds. -/
theorem frameWordBounds : Obligations.FrameWordBounds := by
  unfold Obligations.FrameWordBounds
  intro s D rest inv idle hinp
  have ended : ∃ t, Sys2Proof.core.run (D.length + 1) s = .next t ∧ t.inp = rest ∧
      t.cmdidx = s.cmdidx + D.length + 1 := by
    rcases codec_cases s.mode D with ⟨good, _⟩ | ⟨packing, partialGroup, _⟩
    · exact ⟨_, run_good_frame inv idle hinp good, rfl, rfl⟩
    · exact ⟨_, run_bad_frame inv idle hinp packing partialGroup, rleStages_inp _ _, rleStages_cmdidx _ _⟩
  obtain ⟨t, hrun, consumed, counted⟩ := ended
  have words := pushed_length_of_good inv idle hinp hrun
  refine ⟨t, hrun, consumed, counted, fun mode => ?_, fun mode => ?_, fun mode whole => ?_, fun mode whole => ?_⟩
  · rw [words (.inl (by rw [mode]; rfl)), mode]
    exact Nat.succ_le_succ (rle_length_le D)
  · rw [words (.inl (by rw [mode]; rfl)), mode]
    rfl
  · rw [words (.inr whole), mode]
    exact congrArg (· + 1) (packGroups_length D)
  · rw [words (.inr whole), mode]
    have encoded : (rle (packGroups D)).length ≤ D.length / 8 + (D.length / 8 + 1) / 2 := by
      simpa using rle_length_le (packGroups D)
    have same : (secondStage 0b00#2 (reached 0b00#2 D)).length = (rle (packGroups D)).length := rfl
    omega

end Sys2Proof.Machine

/-! PROOFS. What a frame pushes depends only on MODE and the words sent since IDLE (42_commands.md R90). -/
namespace Sys2Proof.Machine

/-! ### Registers over another past

The same registers with another history: no command reads OUT, CMDIDX, the fault record or IN. -/

/-- The registers of `r`, and its output as the words pushed since, over the bookkeeping of `b`. -/
def State.over (r b : State) : State :=
  { r with out := b.out ++ r.out, cmdidx := b.cmdidx, faults := b.faults, inp := b.inp }

theorem emit_over (r b : State) (x : Byte) : (r.over b).emit x = (r.emit x).over b := by
  simp [State.over, State.emit, State.outPush]

theorem rlStep_over (x : Byte) (r b : State) : rlStep x (r.over b) = (rlStep x r).over b := by
  rcases rlStep_cases x r with ⟨run, hx, step⟩ | ⟨run, rfl, step⟩ | ⟨run, rfl, below, step⟩ | ⟨run, rfl, full, step⟩ |
    ⟨run, hx, step⟩ <;> rw [step]
  · rw [rlStep_literal x (r.over b) run hx, emit_over]
  · rw [rlStep_opens (r.over b) run, emit_over]; rfl
  · rw [rlStep_counts (r.over b) run below]; rfl
  · rw [rlStep_saturates (r.over b) run full, emit_over]; rfl
  · rw [rlStep_closes x (r.over b) run hx, emit_over, emit_over]; rfl

theorem rleStage_over (a : Byte) (r b : State) : rleStage a (r.over b) = (rleStage a r).over b := by
  cases raw : bypRle r.mode with
  | true => rw [rleStage_raw a r raw, rleStage_raw a (r.over b) raw, emit_over]
  | false => rw [rleStage_encoded a r raw, rleStage_encoded a (r.over b) raw, rlStep_over]

theorem dataEffect_over (d : Byte) (r b : State) : dataEffect d (r.over b) = (dataEffect d r).over b := by
  rcases dataEffect_cases d r with ⟨bypassed, effect⟩ | ⟨packing, inner, effect⟩ | ⟨packing, last, effect⟩ <;> rw [effect]
  · rw [dataEffect_byte d (r.over b) bypassed]
    exact rleStage_over d { r with phase := .busy } b
  · rw [dataEffect_inner d (r.over b) packing inner]; rfl
  · rw [dataEffect_last d (r.over b) packing last]
    exact rleStage_over _ { r with phase := .busy, acc := 0x00#8, bitcnt := 0#3 } b

theorem closeFrame_over (r b : State) : closeFrame (r.over b) = (closeFrame r).over b := by
  rcases closeFrame_cases r with ⟨encoding, run, closed⟩ | ⟨plain, closed⟩ <;> rw [closed]
  · rw [closeFrame_flushing (r.over b) encoding run]
    simp [State.over]
  · rw [closeFrame_plain (r.over b) plain]
    simp [State.over]

theorem emitAbort_over (r b : State) (c : AbortReason) : (r.over b).emitAbort c = (r.emitAbort c).over b := by
  simp [State.over, State.emitAbort, State.outPush]

/-- Fault entry writes the record, but the record is bookkeeping. -/
theorem raise_over (r b : State) (e : Exc) : (r.over b).raise e = (r.raise e).over (b.recordFault e) := by
  simp [State.over, raise_eq, State.recordFault]

/-- The outcome is the state `t` over a past with the same output as `b`. -/
def NextOver (t b : State) (o : Host.Outcome State Fault Refusal) : Prop :=
  ∃ c : State, c.out = b.out ∧ o = .next (t.over c)

theorem exec_over {i : Instr} {r t : State} (b : State) (h : exec i r = .next t) : NextOver t b (exec i (r.over b)) := by
  cases i with
  | data d =>
    by_cases fault : r.phase = .fault
    · rw [exec, execData_fault r d fault] at h; cases h
      exact ⟨b, rfl, execData_fault (r.over b) d fault⟩
    · rw [exec, execData_busy r d fault] at h; cases h
      exact ⟨b, rfl, by rw [← dataEffect_over]; exact execData_busy (r.over b) d fault⟩
  | endFrame =>
    by_cases fault : r.phase = .fault
    · rw [exec, execEnd_fault r fault] at h; cases h
      exact ⟨b, rfl, execEnd_fault (r.over b) fault⟩
    · cases bad : lengthBad r with
      | true =>
        rw [exec, execEnd_bad r fault bad] at h; cases h
        exact ⟨b.recordFault _, rfl, by rw [← raise_over]; exact execEnd_bad (r.over b) fault bad⟩
      | false =>
        rw [exec, execEnd_closes r fault bad] at h; cases h
        exact ⟨b, rfl, by rw [← closeFrame_over]; exact execEnd_closes (r.over b) fault bad⟩
  | cfg m =>
    cases phase : r.phase with
    | idle =>
      rw [exec, execCfg_idle r m phase] at h; cases h
      exact ⟨b, rfl, execCfg_idle (r.over b) m phase⟩
    | busy =>
      rw [exec, execCfg_busy r m phase] at h; cases h
      exact ⟨b.recordFault _, rfl, by rw [← raise_over]; exact execCfg_busy (r.over b) m phase⟩
    | fault =>
      rw [exec, execCfg_fault r m phase] at h; cases h
      exact ⟨b, rfl, execCfg_fault (r.over b) m phase⟩
  | clr =>
    by_cases busy : r.phase = .busy
    · rw [exec, execClr_busy r busy] at h; cases h
      exact ⟨b, rfl, (execClr_busy (r.over b) busy).trans (by rw [emitAbort_over]; rfl)⟩
    · rw [exec, execClr_closed r busy] at h; cases h
      exact ⟨b, rfl, execClr_closed (r.over b) busy⟩

/-- One word does to the registers, and pushes, the same over every past. -/
theorem accept_over {w : CmdWord} {r t : State} (b : State) (h : accept w r = .next t) :
    NextOver t b (accept w (r.over b)) := by
  have counted : (r.over b).countCommand = r.countCommand.over b.countCommand := rfl
  cases decoded : decode w with
  | ok i =>
    rw [accept_command r w i decoded] at h
    rw [accept_command (r.over b) w i decoded, counted]
    exact exec_over b.countCommand h
  | error e =>
    rw [accept_illegal r w e decoded] at h; cases h
    rw [accept_illegal (r.over b) w e decoded, counted]
    by_cases fault : r.phase = .fault
    · rw [illegalWord_in_fault r.countCommand fault, illegalWord_in_fault (r.countCommand.over _) fault]
      exact ⟨b.countCommand, rfl, rfl⟩
    · rw [illegalWord_outside_fault r.countCommand fault, illegalWord_outside_fault (r.countCommand.over _) fault,
        raise_over]
      exact ⟨b.countCommand.recordFault _, rfl, rfl⟩

theorem feedAll_over (ws : List CmdWord) (r b : State) :
    ∃ c : State, c.out = b.out ∧ feedAll (r.over b) ws = (feedAll r ws).over c := by
  induction ws generalizing r b with
  | nil => exact ⟨b, rfl, rfl⟩
  | cons w ws ih =>
    obtain ⟨c, hc, first⟩ := accept_over b (accept_eq_next_feed r w)
    obtain ⟨c', hc', rest⟩ := ih (feed r w) c
    refine ⟨c', hc'.trans hc, ?_⟩
    exact (congrArg (feedAll · ws) (feed_eq_of_accept first)).trans rest

/-- The registers alone, with nothing pushed yet. -/
def State.registers (s : State) : State := { s with out := [] }

theorem over_registers {r s : State} (same : SameRegisters r s) : r.registers.over s = s := by
  obtain ⟨hmode, hphase, hcause, hacc, hbitcnt, hrun, hcnt⟩ := same
  cases s
  simp_all [State.over, State.registers]

theorem SameRegisters.refl (s : State) : SameRegisters s s := ⟨rfl, rfl, rfl, rfl, rfl, rfl, rfl⟩

/-- Between frames the registers are MODE and zeros (R24 item 1). -/
theorem SameRegisters.of_idle {s t : State} (invs : s.Inv) (invt : t.Inv) (idles : s.phase = .idle)
    (idlet : t.phase = .idle) (mode : s.mode = t.mode) : SameRegisters s t := by
  obtain ⟨acc, bitcnt, run, cnt, cause⟩ := invs.idle_clear idles
  obtain ⟨acc', bitcnt', run', cnt', cause'⟩ := invt.idle_clear idlet
  exact ⟨mode, by rw [idles, idlet], by rw [cause, cause'], by rw [acc, acc'], by rw [bitcnt, bitcnt'],
    by rw [run, run'], by rw [cnt, cnt']⟩

/-- Settles O51: in IDLE both states are the same registers over two pasts, and so they stay. -/
theorem framesAreIndependent : Obligations.FramesAreIndependent := by
  unfold Obligations.FramesAreIndependent
  intro s₁ s₂ ws inv₁ inv₂ idle₁ idle₂ mode
  have same := SameRegisters.of_idle inv₁ inv₂ idle₁ idle₂ mode
  obtain ⟨c₁, out₁, run₁⟩ := feedAll_over ws s₁.registers s₁
  obtain ⟨c₂, out₂, run₂⟩ := feedAll_over ws s₁.registers s₂
  rw [over_registers (SameRegisters.refl s₁)] at run₁
  rw [over_registers same] at run₂
  rw [run₁, run₂, ← out₁, ← out₂]
  exact ⟨⟨(feedAll s₁.registers ws).out, rfl, rfl⟩, rfl⟩

end Sys2Proof.Machine
